-- ==== Sys2Proof/Word.lean ====
section
/-! DEFINITION. The words of the machine: field elements (bytes), command words, and the text the host submits. -/

namespace Sys2Proof

/-- A field element, `bits8`: bit `i` is the coefficient of x^i (R8, R20). -/
abbrev Byte := BitVec 8

/-- A level B command word, `cw`: 12 bits, `op` in 11:8 and `imm8` in 7:0 (R69). -/
abbrev CmdWord := BitVec 12

/-- A token: the characters between two single spaces of a line, one character a byte (R60, R61). -/
abbrev Token := List Byte

/-- A line as the host submits it, without its terminator (R60). -/
abbrev Line := List Byte

end Sys2Proof
end

