-- ==== Sys2Proof/Config.lean ====
section
/-! DEFINITION. What is fixed for the machine: the parameters of R6. `STACK_DEPTH` is the one open parameter; its type
is here and its value is a field of State, so that every statement holds for every value of it (log 1). -/

namespace Sys2Proof

/-- `RED`: x^8 + x^4 + x^3 + x + 1 without its leading term (R5, R6). -/
abbrev reductionConstant : Byte := 0x1B#8

/-- `MUL_ITERS`: the multiplier iterates exactly 8 times (R5, R6). -/
abbrev mulIters : Nat := 8

/-- `INV_ENTRIES`: the inverse table has 256 entries (R5, R6). -/
abbrev invEntries : Nat := 256

/-- `STACK_DEPTH`: "a natural number >= 1 or `unbounded`" (R6). That the number is at least 1 is `StackDepth.wf`. -/
inductive StackDepth where
  | unbounded
  | finite (cells : Nat)
deriving DecidableEq, Repr

end Sys2Proof
end

