-- ==== Sys2Proof/Machine/Field.lean ====
section
/-! DEFINITION. The field unit's pure functions (R90 to R93): addition, the shift-and-reduce step, the 8-iteration
multiplier, and the polynomial product that the multiplier computes. They read and write no state (R99). -/

namespace Sys2Proof.Machine

/-- `gf_add(a, b)`: bitwise exclusive or (R90). Subtraction is the same function (R98). -/
def gfAdd (a b : Byte) : Byte := a ^^^ b

/-- `xtime(a)`: note bit 7, shift left within 8 bits, XOR 0x1B if bit 7 was set (R91). -/
def xtime (a : Byte) : Byte :=
  if a.getLsbD 7 then (a <<< 1) ^^^ reductionConstant else a <<< 1

/-- The multiplier's working registers (R31 (b), R92), dead between commands. -/
structure MulRegs where
  acc : Byte
  a   : Byte
  b   : Byte
deriving DecidableEq, Repr

/-- One iteration of the multiplier (R92). -/
def mulIteration (r : MulRegs) : MulRegs :=
  match r with
  | ⟨acc, a, b⟩ => ⟨if b.getLsbD 0 then acc ^^^ a else acc, xtime a, b >>> 1⟩

/-- `n` iterations of the multiplier. -/
def mulIterations : Nat → MulRegs → MulRegs
  | 0, r => r
  | n + 1, r => mulIterations n (mulIteration r)

/-- `gf_mul(a, b)`: the accumulator after exactly 8 iterations from 0x00 (R92). -/
def gfMul (a b : Byte) : Byte := (mulIterations mulIters ⟨0x00#8, a, b⟩).acc

/-- `xtime^k(a)`, the `k`-fold application of `xtime` (R93). -/
def xtimeIter : Nat → Byte → Byte
  | 0, a => a
  | k + 1, a => xtime (xtimeIter k a)

/-- The exclusive or, over the first `n` bit positions `k` that are set in `b`, of `term k`. -/
def xorOverBits {w : Nat} (term : Nat → BitVec w) (b : Byte) : Nat → BitVec w
  | 0 => 0#w
  | n + 1 => if b.getLsbD n then xorOverBits term b n ^^^ term n else xorOverBits term b n

/-- The carry-less product of two polynomials of degree below 8, before any reduction: "partial products combine via
XOR" (00_scope.md glossary). -/
def carrylessProduct (a b : Byte) : BitVec 16 :=
  xorOverBits (fun k => a.zeroExtend 16 <<< k) b 8

/-- Cancel the terms x^(n+7) down to x^8 of `p` by multiples of x^8 + x^4 + x^3 + x + 1 (0x11B). -/
def reduceFrom : Nat → BitVec 16 → BitVec 16
  | 0, p => p
  | n + 1, p => reduceFrom n (if p.getLsbD (n + 8) then p ^^^ (0x11B#16 <<< n) else p)

/-- The remainder of a polynomial of degree below 16 modulo x^8 + x^4 + x^3 + x + 1. -/
def polyRemainder (p : BitVec 16) : Byte := (reduceFrom 8 p).setWidth 8

end Sys2Proof.Machine
end

