-- ==== Sys2Proof/Machine/State.lean ====
section
/-! DEFINITION. The state of the machine as plain data, the reasons a step can stop, and the state after reset. -/

namespace Sys2Proof.Machine

/-- The codes of `STATUS` (R27). Codes 5 to 7 are never produced by any rule, so they have no constructor (U9). -/
inductive Status where
  /-- 0: normal operation. -/
  | run
  /-- 1: halted, the normal end of a run (R191). -/
  | halted
  /-- 2: division by zero (R192). -/
  | faultDiv0
  /-- 3: a `Push` on a full finite stack (R193). -/
  | faultStackOvf
  /-- 4: reserved, raised by nothing (R194). -/
  | faultInvariant
deriving DecidableEq, Repr

/-- The events that change `STATUS` (R190). -/
inductive Cause where
  | halted
  | faultDiv0
  | faultStackOvf
  | faultInvariant
deriving DecidableEq, Repr

/-- A record of the output log (R28). -/
inductive Record where
  /-- `Dump(s)`: the stack, bottom first, at the moment of a DUMP. -/
  | dump (s : List Byte)
deriving DecidableEq, Repr

/-- What the host does at one moment: one of its six transactions (R170), or nothing (R180, log 3). -/
inductive HostAction where
  /-- `Reset` (R171). -/
  | reset
  /-- `SubmitLine(line)`, level T (R172). -/
  | submitLine (line : Line)
  /-- `SubmitCommand(cw)`, level B (R173). -/
  | submitCommand (cw : CmdWord)
  /-- `ReadStatus` (R175). -/
  | readStatus
  /-- `ReadStack` (R174). -/
  | readStack
  /-- `ReadOut` (R176). -/
  | readOut
  /-- The host does nothing while the core takes one step. -/
  | pause
deriving DecidableEq, Repr

/-- The elements of a record, bottom first. -/
def Record.elements : Record → List Byte
  | .dump s => s

/-- What the core hands over to the host (R181, column "core hands over"). -/
inductive Reply where
  /-- The 3-bit code of `STATUS` (R175). -/
  | status (code : BitVec 3)
  /-- `depth` is the length; the elements, bottom first (R174). -/
  | stack (elements : List Byte)
  /-- The records not yet taken, oldest first (R176). -/
  | out (records : List Record)
deriving DecidableEq, Repr

/-- The cursor of R25: `(line, token)` at level T and `command` at level B. Bookkeeping that no instruction reads or
writes; unbounded. -/
structure Cursor where
  line    : Nat
  token   : Nat
  command : Nat
deriving DecidableEq, Repr

/-- The machine. `stack`, `status` and `out` are the architectural state (R155). -/
structure State where
  /-- `STACK`, index 0 the bottom (R20). -/
  stack   : List Byte
  /-- `STATUS` (R27). -/
  status  : Status
  /-- `OUT` (R28). -/
  out     : List Record
  /-- `STACK_DEPTH`, the parameter (R6): nothing writes it (log 1). -/
  depth   : StackDepth
  /-- The tokens of the line in progress that have not been executed (R157, R172). -/
  line    : List Token
  /-- The cursor (R25). -/
  cursor  : Cursor
  /-- What the host is still to do, in order (log 2). -/
  input   : List HostAction
  /-- How many records of `out` the host has taken (R176). -/
  taken   : Nat
  /-- How many elements of the next record the `out_` port has transferred (R178, log 18). -/
  outPos  : Nat
  /-- What the core has handed over so far (R181). -/
  replies : List Reply
deriving DecidableEq, Repr

/-- Why a step has no successor. -/
inductive Fault where
  /-- `STATUS` is not RUN, so there is no step (R155, R158, D21). Raised by `exec` of any instruction in such a state,
  and by `step` when such a core has no action of the host left to answer. Safe: the model stops where the hardware
  waits for a Reset (log 6). -/
  | stopped (status : Status)
deriving DecidableEq, Repr

/-- Why an instruction has no meaning. -/
inductive Refusal where
  /-- Raised by no arm of `exec`: every instruction has its meaning. Safe. -/
  | notModelled (mnemonic : String)
deriving DecidableEq, Repr

/-- The reset state of a core whose `STACK_DEPTH` is `d` (R33, R215), with nothing submitted yet. -/
def State.resetFor (d : StackDepth) : State where
  stack   := []
  status  := .run
  out     := []
  depth   := d
  line    := []
  cursor  := ⟨0, 0, 0⟩
  input   := []
  taken   := 0
  outPos  := 0
  replies := []

/-- The machine right after reset (R33). DESIGN CHOICE: `STACK_DEPTH`, which the spec leaves open, is `unbounded`, "the
document's behaviour" (R6, log 1). -/
def State.reset : State := State.resetFor .unbounded

end Sys2Proof.Machine
end

