-- ==== Sys2Proof/Machine/Flags.lean ====
section
/-! DEFINITION. The hardware has no flags (R26): the only status information is `STATUS`. Its codes and classes (R27,
R190) and the capacity test of `Push` (R41) are here. -/

namespace Sys2Proof.Machine

/-- `STATUS` as the host reads it: `code[2:0]` (R27). -/
def Status.code : Status → BitVec 3
  | .run            => 0b000#3
  | .halted         => 0b001#3
  | .faultDiv0      => 0b010#3
  | .faultStackOvf  => 0b011#3
  | .faultInvariant => 0b100#3

/-- The column "class" of the table under R27: is the code one of the faults? -/
def Status.isFault : Status → Bool
  | .run | .halted => false
  | .faultDiv0 | .faultStackOvf | .faultInvariant => true

/-- The code that an event sets (R190). -/
def Cause.status : Cause → Status
  | .halted         => .halted
  | .faultDiv0      => .faultDiv0
  | .faultStackOvf  => .faultStackOvf
  | .faultInvariant => .faultInvariant

/-- "`STACK_DEPTH` is finite and `depth = STACK_DEPTH`" (R41), for a stack of `n` elements. -/
def isFullAt : StackDepth → Nat → Bool
  | .unbounded, _ => false
  | .finite cells, n => n == cells

/-- `0 <= depth <= STACK_DEPTH` (R20), for a stack of `n` elements. -/
def fitsIn : StackDepth → Nat → Bool
  | .unbounded, _ => true
  | .finite cells, n => decide (n ≤ cells)

/-- Is the stack full? -/
def State.isFull (s : State) : Bool := isFullAt s.depth s.stack.length

end Sys2Proof.Machine
end

