-- ==== Sys2Proof/Machine/Ops.lean ====
section
/-! DEFINITION. The named operations over the state: the field updates, `Push`, `PopOr`, `emit` and `raise` (R28, R41,
R42, R198), the guard "only while STATUS = RUN" (R155), and Reset, the only way out of a stopped state (R171, R200).
`RomRead` (R43) is in InverseTable.lean. -/

namespace Sys2Proof.Machine

def State.setStack (s : State) (v : List Byte) : State := { s with stack := v }
def State.setStatus (s : State) (v : Status) : State := { s with status := v }
def State.setLine (s : State) (v : List Token) : State := { s with line := v }
def State.setCursor (s : State) (v : Cursor) : State := { s with cursor := v }
def State.setInput (s : State) (v : List HostAction) : State := { s with input := v }
def State.setTaken (s : State) (v : Nat) : State := { s with taken := v }
def State.setOutPos (s : State) (v : Nat) : State := { s with outPos := v }

/-- Hand something over to the host (R181). -/
def State.addReply (s : State) (r : Reply) : State := { s with replies := s.replies ++ [r] }

/-- The records of `OUT` that the host has not yet taken, oldest first (R176). -/
def State.untaken (s : State) : List Record := s.out.drop s.taken

/-- Hand `records` over; the host has then taken the first `n` records of `OUT`, and no part of the next one (R176). -/
def State.handOver (s : State) (records : List Record) (n : Nat) : State :=
  ((s.addReply (.out records)).setTaken n).setOutPos 0

/-- `emit`: append a record to the output log (R28). -/
def State.emit (s : State) (r : Record) : State := { s with out := s.out ++ [r] }

/-- `raise <code>`, the hardware's trap entry: `STATUS <- code` and nothing else (R198). Nothing is saved, no control is
transferred; there is no return but Reset (R200). -/
def State.raise (s : State) (c : Cause) : State := s.setStatus c.status

/-- `Push(v)` (R41): on a full finite stack raise `FAULT_STACK_OVF` and leave the stack; otherwise `STACK <- STACK ++ [v]`. -/
def State.push (s : State) (v : Byte) : State :=
  if s.isFull then s.raise .faultStackOvf else s.setStack (s.stack ++ [v])

/-- `PopOr(d)` (R42): remove and return the top, or return the default `d` from an empty stack. -/
def State.popOr (s : State) (d : Byte) : Byte × State :=
  match s.stack.getLast? with
  | some v => (v, s.setStack s.stack.dropLast)
  | none   => (d, s)

/-- A command's effect happens only while `STATUS = RUN`; otherwise "there is no step" (R155, R158, log 6). -/
def State.whileRunning (s : State) (effect : State → State) : Host.Outcome State Fault Refusal :=
  if s.status = .run then .next (effect s) else .fault (.stopped s.status)

/-- What `Reset` does to the core (R33, R171, R216): the state of `State.resetFor` for its own `STACK_DEPTH`, a command
or line in progress abandoned. What the host holds on its own side, the actions to come and the replies it has had,
is not the core's (log 10). -/
def State.resetCore (s : State) : State :=
  { State.resetFor s.depth with input := s.input, replies := s.replies }

/-- The cursor after a token of the line in progress; `last` says that it is the last token (R25). -/
def Cursor.afterToken (c : Cursor) (last : Bool) : Cursor :=
  if last then ⟨c.line + 1, 0, c.command + 1⟩ else ⟨c.line, c.token + 1, c.command + 1⟩

/-- The cursor after a command word submitted at level B (R25). -/
def Cursor.afterCommand (c : Cursor) : Cursor := ⟨c.line, c.token, c.command + 1⟩

end Sys2Proof.Machine
end

