-- ==== Sys2Proof/Machine/Operands.lean ====
section
/-! DEFINITION. The operand forms. There are two (R24, R164): PUSH's immediate, used as it stands (R71), and the two
implicit operands of a binary operator, popped one after the other, each with the operator's own default (R42). -/

namespace Sys2Proof.Machine

/-- "pop a, then pop b", each pop substituting `d` on an empty stack: the first-popped operand, the second-popped one,
and the state after both pops. -/
def State.popTwo (s : State) (d : Byte) : Byte × Byte × State :=
  let (a, s1) := s.popOr d
  let (b, s2) := s1.popOr d
  (a, b, s2)

end Sys2Proof.Machine
end

