-- ==== Sys2Proof/Machine/Additive.lean ====
section
/-! DEFINITION. ADD, XOR, SUB (42_additive_ops.md): three instructions with one meaning, the field addition. -/

namespace Sys2Proof.Machine

/-- The shared body of R115 to R117: a and b popped with default 0x00, `gf_add(a, b)` pushed. -/
def State.additive (s : State) : State :=
  let (a, b, s2) := s.popTwo 0x00#8
  s2.push (gfAdd a b)

/-- ADD `+` (R115). -/
def execAdd (s : State) : Host.Outcome State Fault Refusal := s.whileRunning State.additive

/-- XOR `^` (R116). -/
def execXor (s : State) : Host.Outcome State Fault Refusal := s.whileRunning State.additive

/-- SUB `-` (R117); subtraction is addition (R98). -/
def execSub (s : State) : Host.Outcome State Fault Refusal := s.whileRunning State.additive

end Sys2Proof.Machine
end

