-- ==== Sys2Proof/Machine/Directives.lean ====
section
/-! DEFINITION. DUMP and CLR (44_directives.md). -/

namespace Sys2Proof.Machine

/-- DUMP `_d` (R135): `emit Dump(STACK)`, and nothing else. -/
def execDump (s : State) : Host.Outcome State Fault Refusal := s.whileRunning (fun s => s.emit (.dump s.stack))

/-- CLR `_c` (R136): `STACK <- []`, and nothing else. -/
def execClr (s : State) : Host.Outcome State Fault Refusal := s.whileRunning (fun s => s.setStack [])

end Sys2Proof.Machine
end

