-- ==== Sys2Proof/Machine/LiteralTerm.lean ====
section
/-! DEFINITION. PUSH and TERM (45_literal_and_term.md). -/

namespace Sys2Proof.Machine

/-- PUSH imm8 (R145): `Push(imm8)`. -/
def execPush (imm8 : Byte) (s : State) : Host.Outcome State Fault Refusal := s.whileRunning (fun s => s.push imm8)

/-- TERM (R146): `raise HALTED`. -/
def execTerm (s : State) : Host.Outcome State Fault Refusal := s.whileRunning (fun s => s.raise .halted)

end Sys2Proof.Machine
end

