-- ==== Sys2Proof/Machine/Multiplicative.lean ====
section
/-! DEFINITION. MUL and DIV (43_multiplicative_ops.md). -/

namespace Sys2Proof.Machine

/-- R125: a and b popped with default 0x01, `gf_mul(a, b)` pushed. -/
def State.multiply (s : State) : State :=
  let (a, b, s2) := s.popTwo 0x01#8
  s2.push (gfMul a b)

/-- R126: a, the divisor, then b, the dividend, popped with default 0x00. Where `gf_div(b, a)` has no value the stack is
as before the instruction and `FAULT_DIV0` is raised; otherwise the quotient is pushed. -/
def State.divide (s : State) : State :=
  let (a, b, s2) := s.popTwo 0x00#8
  match gfDiv b a with
  | none   => (s2.setStack s.stack).raise .faultDiv0
  | some c => s2.push c

/-- MUL `*` (R125). -/
def execMul (s : State) : Host.Outcome State Fault Refusal := s.whileRunning State.multiply

/-- DIV `/` (R126). -/
def execDiv (s : State) : Host.Outcome State Fault Refusal := s.whileRunning State.divide

end Sys2Proof.Machine
end

