-- ==== Sys2Proof/Syntax.lean ====
section
/-! DEFINITION. The nine instructions of spec/opcode_table.json (R70), one constructor a row. PUSH carries its
immediate; the other eight carry nothing, because their `imm8` is ignored (R71) and TERM's `op[2:0]` too (R72). -/

namespace Sys2Proof

/-- The RPN token set (R1, R70). ADD, XOR and SUB are three instructions of one meaning (R63, D22). -/
inductive Instr where
  /-- PUSH imm8: push the byte (R145). -/
  | push (imm8 : Byte)
  /-- ADD `+` (R115). -/
  | add
  /-- XOR `^` (R116). -/
  | xor
  /-- SUB `-` (R117). -/
  | sub
  /-- MUL `*` (R125). -/
  | mul
  /-- DIV `/` (R126). -/
  | div
  /-- DUMP `_d` (R135). -/
  | dump
  /-- CLR `_c` (R136). -/
  | clr
  /-- TERM, the session-terminating signal (R146). -/
  | term
deriving DecidableEq, Repr

end Sys2Proof
end

