-- ==== Sys2Proof/Machine/Dispatch.lean ====
section
/-! DEFINITION. The dispatch of the step function of R155: one arm per instruction. -/

namespace Sys2Proof.Machine

/-- `step(S, cw)` of R155 after decoding: the meaning of the instruction that the word selects. -/
def exec (i : Instr) (s : State) : Host.Outcome State Fault Refusal :=
  match i with
  | .push imm8 => Sys2Proof.Machine.execPush imm8 s
  | .add => Sys2Proof.Machine.execAdd s
  | .xor => Sys2Proof.Machine.execXor s
  | .sub => Sys2Proof.Machine.execSub s
  | .mul => Sys2Proof.Machine.execMul s
  | .div => Sys2Proof.Machine.execDiv s
  | .dump => Sys2Proof.Machine.execDump s
  | .clr => Sys2Proof.Machine.execClr s
  | .term => Sys2Proof.Machine.execTerm s

end Sys2Proof.Machine
end

