-- ==== Sys2Proof/WellFormed.lean ====
section
/-! DEFINITION. Which terms the spec admits. An instruction of the syntax is always well formed, because PUSH's
operand is a byte by its type (R145) and no other instruction has an operand; the checks are on what arrives from
outside: words, tokens, lines and the parameter. -/

namespace Sys2Proof

/-- The space, the only token separator (R60, R61). -/
abbrev chSpace : Byte := 0x20#8

/-- Line feed and carriage return, which the host strips (R179 (a)). -/
abbrev chLF : Byte := 0x0A#8
abbrev chCR : Byte := 0x0D#8

/-- The conditions of a well-formed instruction. All nine are well formed whatever they carry: PUSH's immediate is a
`bits8` and the map of R70 is total. -/
def Instr.wf : Instr → Bool
  | .push imm8 => decide (imm8.toNat ≤ 255)
  | .add => true
  | .xor => true
  | .sub => true
  | .mul => true
  | .div => true
  | .dump => true
  | .clr => true
  | .term => true

/-- A number is a command word when it fits the 12 bits of R69. -/
def commandWordWf (w : Nat) : Bool := decide (w < 4096)

/-- "A token contains no space and may be empty" (R61). -/
def tokenWf (t : Token) : Bool := t.all (fun ch => ch != chSpace)

/-- A submitted line carries no line terminator: the host's duty R179 (a). -/
def lineWf (l : Line) : Bool := l.all (fun ch => ch != chLF && ch != chCR)

/-- `STACK_DEPTH` is a natural number >= 1 or unbounded (R6). -/
def StackDepth.wf : StackDepth → Bool
  | .unbounded => true
  | .finite cells => decide (1 ≤ cells)

end Sys2Proof
end

