-- ==== Sys2Proof/Decode.lean ====
section
/-! DEFINITION. Level B: decoding a command word (R69 to R72) and, after it, the encoder. Both are written from the
opcode map of R70. The text level (R60 to R67, R73) is Machine/Tokenizer.lean. -/

namespace Sys2Proof

/-- `cw[11:8]`, the field `op` (R69). -/
def opField (cw : CmdWord) : BitVec 4 := cw.extractLsb' 8 4

/-- `cw[7:0]`, the field `imm8` (R69). -/
def immField (cw : CmdWord) : Byte := cw.extractLsb' 0 8

/-- The word with the given fields, `{op, imm8}` (R69). -/
def packWord (op : BitVec 4) (imm8 : Byte) : CmdWord := op ++ imm8

/-- The opcode map of R70: `op` alone selects the instruction, and all 4096 words decode. Every `op` with bit 3 set is
TERM (R72). -/
def decode (cw : CmdWord) : Instr :=
  match (opField cw).toNat with
  | 0x0 => .push (immField cw)
  | 0x1 => .add
  | 0x2 => .xor
  | 0x3 => .sub
  | 0x4 => .mul
  | 0x5 => .div
  | 0x6 => .dump
  | 0x7 => .clr
  | _   => .term

/-- The one reason a number is no instruction: it does not fit in the 12 bits of a command word. -/
inductive DecodeError where
  | widerThanCommandWord
deriving DecidableEq, Repr

/-- Decode a number: a command word is one indivisible 12-bit value (R45), so a wider number is rejected by name. -/
def decodeNat (w : Nat) : Except DecodeError Instr :=
  if commandWordWf w then .ok (decode (BitVec.ofNat 12 w)) else .error .widerThanCommandWord

/-- `op` of the canonical word of an instruction (R70, R72). -/
def Instr.opcode : Instr → BitVec 4
  | .push _ => 0x0#4
  | .add    => 0x1#4
  | .xor    => 0x2#4
  | .sub    => 0x3#4
  | .mul    => 0x4#4
  | .div    => 0x5#4
  | .dump   => 0x6#4
  | .clr    => 0x7#4
  | .term   => 0xF#4

/-- `imm8` of the canonical word of an instruction: PUSH's immediate, 0x00 for the others (R71). -/
def Instr.immediate : Instr → Byte
  | .push imm8 => imm8
  | .add | .xor | .sub | .mul | .div | .dump | .clr | .term => 0x00#8

/-- The canonical command word of an instruction, the one the tokenizer produces (R71 to R73). -/
def encode (i : Instr) : CmdWord := packWord i.opcode i.immediate

/-- One row of the table under R70. -/
structure OpcodeRow where
  mask   : CmdWord
  pattern : CmdWord
deriving DecidableEq, Repr

/-- Does the row select the word? -/
def OpcodeRow.selects (r : OpcodeRow) (cw : CmdWord) : Bool := cw &&& r.mask == r.pattern

/-- The mask and match columns of the table under R70, each beside the constructor it stands for. -/
def Instr.row : Instr → OpcodeRow
  | .push _ => ⟨0xF00#12, 0x000#12⟩
  | .add    => ⟨0xF00#12, 0x100#12⟩
  | .xor    => ⟨0xF00#12, 0x200#12⟩
  | .sub    => ⟨0xF00#12, 0x300#12⟩
  | .mul    => ⟨0xF00#12, 0x400#12⟩
  | .div    => ⟨0xF00#12, 0x500#12⟩
  | .dump   => ⟨0xF00#12, 0x600#12⟩
  | .clr    => ⟨0xF00#12, 0x700#12⟩
  | .term   => ⟨0x800#12, 0x800#12⟩

/-- The instruction of an opcode-table row whose bits are `w`: the low `nbits` bits of `w` are the word, and what the
table's row length leaves above bit 11 must be zero (log 17). -/
def decodeTableWord (nbits w : Nat) : Option Instr :=
  match decodeNat (w % 2 ^ nbits) with
  | .ok i    => some i
  | .error _ => none

end Sys2Proof
end

