-- ==== Sys2Proof/Machine/Tokenizer.lean ====
section
/-! DEFINITION. The tokenizer: level T, from a line to command words (R60 to R68, R73). `literalStream` is the streaming
recogniser that R67 says is enough. -/

namespace Sys2Proof.Machine

/-- The characters of the table under R60 that stand alone. -/
abbrev chPlus : Byte := 0x2B#8
abbrev chCaret : Byte := 0x5E#8
abbrev chMinus : Byte := 0x2D#8
abbrev chStar : Byte := 0x2A#8
abbrev chSlash : Byte := 0x2F#8
abbrev chUnderscore : Byte := 0x5F#8
abbrev chLowerC : Byte := 0x63#8
abbrev chLowerD : Byte := 0x64#8
abbrev chLowerX : Byte := 0x78#8
abbrev chZero : Byte := 0x30#8

/-- Splitting by single spaces, with `cur` the characters of the token being read (R61). -/
def splitFrom (cur : Token) : Line → List Token
  | [] => [cur]
  | ch :: rest => if ch = chSpace then cur :: splitFrom [] rest else splitFrom (cur ++ [ch]) rest

/-- `split(line)` (R61): n spaces give n + 1 tokens, the empty ones included. -/
def split (line : Line) : List Token := splitFrom [] line

/-- The value of a decimal digit `0` to `9` (R60, R65). -/
def decDigit (ch : Byte) : Option Nat :=
  if 0x30 ≤ ch.toNat ∧ ch.toNat ≤ 0x39 then some (ch.toNat - 0x30) else none

/-- The value of a hexadecimal digit `0` to `9`, `a` to `f`, `A` to `F` (R60, R66). -/
def hexDigit (ch : Byte) : Option Nat :=
  if 0x30 ≤ ch.toNat ∧ ch.toNat ≤ 0x39 then some (ch.toNat - 0x30)
  else if 0x61 ≤ ch.toNat ∧ ch.toNat ≤ 0x66 then some (ch.toNat - 0x61 + 10)
  else if 0x41 ≤ ch.toNat ∧ ch.toNat ≤ 0x46 then some (ch.toNat - 0x41 + 10)
  else none

/-- The number that digits spell in a base, most significant first; no value when a character is no digit. A natural
number, no wrap (R67). -/
def numeralFrom (base : Nat) (digit : Byte → Option Nat) (n : Nat) : Token → Option Nat
  | [] => some n
  | ch :: rest =>
    match digit ch with
    | some d => numeralFrom base digit (n * base + d) rest
    | none => none

/-- The byte that a nonempty string of digits spells, when it is at most 255 (R65, R66). -/
def byteNumeral (base : Nat) (digit : Byte → Option Nat) (t : Token) : Option Byte :=
  if t = [] then none
  else
    match numeralFrom base digit 0 t with
    | some n => if 255 < n then none else some (BitVec.ofNat 8 n)
    | none => none

/-- `dec(t)` (R65, R67). -/
def decLiteral (t : Token) : Option Byte := byteNumeral 10 decDigit t

/-- `t'`: the token without one leading `0x` (R66). -/
def stripHexMark : Token → Token
  | c0 :: c1 :: rest => if c0 = chZero ∧ c1 = chLowerX then rest else c0 :: c1 :: rest
  | t => t

/-- `hex(t)` (R66, R67). -/
def hexLiteral (t : Token) : Option Byte := byteNumeral 16 hexDigit (stripHexMark t)

/-- `literal(t)`: decimal first, then hexadecimal (R67). -/
def literal (t : Token) : Option Byte :=
  match decLiteral t with
  | some v => some v
  | none => hexLiteral t

/-- The five operator tokens (R63). -/
def operatorToken (t : Token) : Option Instr :=
  if t = [chPlus] then some .add
  else if t = [chCaret] then some .xor
  else if t = [chMinus] then some .sub
  else if t = [chStar] then some .mul
  else if t = [chSlash] then some .div
  else none

/-- The two directive tokens (R64). -/
def directiveToken (t : Token) : Option Instr :=
  if t = [chUnderscore, chLowerD] then some .dump
  else if t = [chUnderscore, chLowerC] then some .clr
  else none

/-- `classify(t)` (R73): the command word of a token; a token of no other class is the canonical TERM 0xF00 (R68). -/
def classify (t : Token) : CmdWord :=
  match operatorToken t with
  | some i => encode i
  | none =>
    match directiveToken t with
    | some i => encode i
    | none =>
      match literal t with
      | some v => encode (.push v)
      | none => encode .term

/-- Is the token made of digits of a kind, one or more? (R65, R66) -/
def allDigits (digit : Byte → Option Nat) (t : Token) : Bool := t != [] && t.all (fun ch => (digit ch).isSome)

/-- How far the recogniser of R67 is with the optional `0x`. -/
inductive MarkState where
  /-- No character yet. -/
  | start
  /-- The one character so far is `0`. -/
  | sawZero
  /-- Anything else: no `0x` can follow any more. -/
  | past
deriving DecidableEq, Repr

/-- An accumulator with its marks: the low 8 bits of the value, the sticky "exceeded 255" mark, the "saw another
character" mark, and whether any character has been counted (R67). -/
structure Accum where
  value    : Byte
  exceeded : Bool
  sawOther : Bool
  counted  : Bool
deriving DecidableEq, Repr

/-- The tokenizer's working registers (R31 (c), R67), dead between tokens: a finite state. -/
structure LitRegs where
  dec  : Accum
  hex  : Accum
  mark : MarkState
deriving DecidableEq, Repr

def emptyAccum : Accum := ⟨0x00#8, false, false, false⟩

/-- An accumulator takes one character. -/
def accumulate (base : Nat) (digit : Byte → Option Nat) (r : Accum) (ch : Byte) : Accum :=
  match digit ch with
  | some d =>
    let n := r.value.toNat * base + d
    ⟨BitVec.ofNat 8 n, r.exceeded || decide (255 < n), r.sawOther, true⟩
  | none => { r with sawOther := true, counted := true }

/-- What an accumulator spells once the token has ended. -/
def accumResult (r : Accum) : Option Byte :=
  if r.counted && !r.sawOther && !r.exceeded then some r.value else none

/-- The recogniser takes one character; an `x` right after a lone `0` starts the hexadecimal accumulator afresh. -/
def literalStep (r : LitRegs) (ch : Byte) : LitRegs :=
  { dec := accumulate 10 decDigit r.dec ch
    hex := if r.mark = .sawZero ∧ ch = chLowerX then emptyAccum else accumulate 16 hexDigit r.hex ch
    mark := if r.mark = .start ∧ ch = chZero then .sawZero else .past }

/-- The streaming recogniser of R67: one pass over the token with the registers of `LitRegs`. -/
def literalStream (t : Token) : Option Byte :=
  let r := t.foldl literalStep ⟨emptyAccum, emptyAccum, .start⟩
  match accumResult r.dec with
  | some v => some v
  | none => accumResult r.hex

end Sys2Proof.Machine
end

