-- ==== Sys2Proof/Machine/Session.lean ====
section
/-! DEFINITION. Around one instruction: the host's transactions and the line in progress (R157, R158, R170 to R176), all
in `turn`, which Step.lean calls. One turn executes at most one instruction (R160). `execLine` and `runCommands` are the
spec's own pseudocode of R157 and R50, against which `turn` is stated. -/

namespace Sys2Proof.Machine

abbrev Result := Host.Outcome State Fault Refusal

/-- The core is busy while a line is in progress (R178 `busy`; a command word is one turn and leaves none). -/
def State.busy (s : State) : Bool := s.line != []

/-- Once `STATUS` is not RUN, "the remaining tokens of the current line are discarded unexamined" (R158). -/
def State.dropLineIfStopped (s : State) : State := if s.status = .run then s else s.setLine []

/-- What follows the instruction in the same turn. -/
def settle : Result → Result
  | .next s => .next s.dropLineIfStopped
  | .fault r => .fault r
  | .refused r => .refused r

/-- Execute one command word (R155). -/
def runWord (cw : CmdWord) (s : State) : Result := settle (exec (decode cw) s)

/-- Execute the token `t` of a line whose later tokens are `rest` (R156, R157). -/
def runToken (t : Token) (rest : List Token) (s : State) : Result :=
  runWord (classify t) ((s.setLine rest).setCursor (s.cursor.afterToken rest.isEmpty))

/-- Execute a command word submitted at level B (R173). -/
def runCommand (cw : CmdWord) (s : State) : Result := runWord cw (s.setCursor s.cursor.afterCommand)

/-- Go on with the line in progress; an idle core does `idle` instead. -/
def State.workOr (s : State) (idle : Result) : Result :=
  match s.line with
  | t :: rest => runToken t rest s
  | [] => idle

/-- A line is taken up: its first token is executed at once (R172). A line has at least one token (R61). -/
def startLine (line : Line) (s : State) : Result :=
  match split line with
  | t :: rest => runToken t rest s
  | [] => .next s

/-- Nothing is offered. A running core waits and "while idle nothing changes" (R159, log 7); a stopped one has no step
(R155, D21, log 6). -/
def State.waitForHost (s : State) : Result :=
  if s.status = .run then .next s else .fault (.stopped s.status)

/-- A submission meets the idle core: accepted while `STATUS = RUN`, otherwise "not accepted and has no effect" (R172,
R173, log 5). -/
def State.acceptIfRunning (s : State) (accepted : Result) : Result :=
  if s.status = .run then accepted else .next s

/-- One turn of the core with its host. Reset and ReadStatus are answered at once, in any state (R171, R175). The other
four transactions wait for an idle core (R172 to R174, R176, log 4). -/
def turn (s : State) : Result :=
  match s.input with
  | [] => s.workOr s.waitForHost
  | .pause :: more => (s.setInput more).workOr (.next (s.setInput more))
  | .reset :: more => .next (s.setInput more).resetCore
  | .readStatus :: more => .next ((s.setInput more).addReply (.status s.status.code))
  | .readStack :: more => s.workOr (.next ((s.setInput more).addReply (.stack s.stack)))
  | .readOut :: more =>
    s.workOr (.next ((s.setInput more).handOver s.untaken s.out.length))
  | .submitLine l :: more =>
    s.workOr ((s.setInput more).acceptIfRunning (startLine l (s.setInput more)))
  | .submitCommand cw :: more =>
    s.workOr ((s.setInput more).acceptIfRunning (runCommand cw (s.setInput more)))

/-- Make `cw` what the very next turn executes: no line in progress, and the word the host's next submission (log 2). -/
def State.offerWord (s : State) (cw : CmdWord) : State :=
  (s.setLine []).setInput (.submitCommand cw :: s.input)

/-- The state after a command word under the pseudocode of R157 and R50: no step when `STATUS` is not RUN. Only the
architectural part of the answer is meant. -/
def applyCommand (s : State) (cw : CmdWord) : State :=
  match exec (decode cw) s with
  | .next t => t
  | .fault _ => s
  | .refused _ => s

/-- "the state after n commands is the n-fold application of the step function" (R50). -/
def runCommands (s : State) (cws : List CmdWord) : State := cws.foldl applyCommand s

/-- `exec_line(S, line)` (R157). -/
def execLine (s : State) (line : Line) : State := runCommands s ((split line).map classify)

/-- The architectural state `S = (STACK, STATUS, OUT)` (R155). -/
def State.arch (s : State) : List Byte × Status × List Record := (s.stack, s.status, s.out)

end Sys2Proof.Machine
end

