-- ==== Sys2Proof/Machine/Step.lean ====
section
/-! DEFINITION. The step of the machine, and the state in which a given word is what the next step runs. -/

namespace Sys2Proof.Machine

/-- One step: one turn of the core with its host (R155, R157, R170). -/
def step (s : State) : Host.Outcome State Fault Refusal := turn s

/-- `s` with the command word in the low bits of `w` offered, so that the next step runs it (log 2). -/
def State.withFetchWord (s : State) (nbits w : Nat) : State := s.offerWord (BitVec.ofNat 12 (w % 2 ^ nbits))

end Sys2Proof.Machine
end

