-- ==== Sys2Proof/Machine/Pins.lean ====
section
/-! DEFINITION. The pin-level form of the transactions (R178), as functions of the state, of the input pins sampled at
one edge and of the sequence of transfers: what the output pins show between commands, what transfers at an edge, how the
transfers of `rst`, `ch_` and `cmd_` merge into the host's submissions, and how records leave on `out_`. No other rule
depends on it; how many edges anything takes does not appear (log 18). -/

namespace Sys2Proof.Machine

/-- The output pins that are functions of the state. -/
structure PinsOut where
  status   : BitVec 3
  busy     : Bool
  sp       : Nat
  chReady  : Bool
  cmdReady : Bool
deriving DecidableEq, Repr

/-- The width of `sp`: ceil(log2(STACK_DEPTH + 1)); "with `STACK_DEPTH = unbounded` the pin form does not exist". -/
def spWidth : StackDepth → Option Nat
  | .unbounded => none
  | .finite cells => some (Nat.clog 2 (cells + 1))

/-- The output pins of a core with a finite `STACK_DEPTH`. The ready pins "are low whenever `STATUS` is not `RUN` or
`busy` is high". -/
def State.pins (s : State) : Option PinsOut :=
  match s.depth with
  | .unbounded => none
  | .finite _ =>
    some { status := s.status.code
           busy := s.busy
           sp := s.stack.length
           chReady := decide (s.status = .run) && !s.busy
           cmdReady := decide (s.status = .run) && !s.busy }

/-- `rd_data = STACK[rd_idx]` when `rd_idx < sp` and `busy` is low; otherwise no value (R174). No value either with an
unbounded `STACK_DEPTH`, where the pin form does not exist. -/
def State.rdData (s : State) (rdIdx : Nat) : Option Byte :=
  match s.depth with
  | .unbounded => none
  | .finite _ => if s.busy then none else s.stack[rdIdx]?

/-- A transfer on the `ch_` port: a character, or the end of the line. -/
inductive ChTransfer where
  | char (ch : Byte)
  | eol
deriving DecidableEq, Repr

/-- The lines that a sequence of `ch_` transfers completes, `cur` being the characters of the line so far. -/
def linesFrom (cur : Line) : List ChTransfer → List Line
  | [] => []
  | .char ch :: rest => linesFrom (cur ++ [ch]) rest
  | .eol :: rest => cur :: linesFrom [] rest

/-- The transfers that carry one line: "an empty line is a lone `ch_eol`". -/
def lineTransfers (l : Line) : List ChTransfer := l.map ChTransfer.char ++ [.eol]

/-- The input pins of `rst`, `ch_` and `cmd_`, as sampled at one rising edge of `clk`. (`rd_idx` is the argument of
`State.rdData`, `out_ready` that of `outTransfer`.) -/
structure PinsIn where
  rst      : Bool
  chValid  : Bool
  chData   : Byte
  chEol    : Bool
  cmdValid : Bool
  cmdData  : CmdWord
deriving DecidableEq, Repr

/-- What the input side transfers at an edge: a Reset, a character or end of line, or a command word. -/
inductive PortTransfer where
  | rst
  | ch (t : ChTransfer)
  | cmd (cw : CmdWord)
deriving DecidableEq, Repr

/-- `ch_`: "one character transfers when both are high"; with `ch_eol` it carries no character. -/
def PinsIn.chTransfer (i : PinsIn) (p : PinsOut) : Option ChTransfer :=
  if i.chValid && p.chReady then some (if i.chEol then .eol else .char i.chData) else none

/-- `cmd_`: "one command word transfers when both are high". -/
def PinsIn.cmdTransfer (i : PinsIn) (p : PinsOut) : Option CmdWord :=
  if i.cmdValid && p.cmdReady then some i.cmdData else none

/-- What transfers at one edge. `rst` is "`Reset` while high at a rising edge", and Reset wins (R171, D16). Both ports at
one edge is a host with a line in progress on `ch_` while it uses `cmd_`, which it must not be: no value (log 20). -/
def PinsIn.transfers (i : PinsIn) (p : PinsOut) : Option (List PortTransfer) :=
  if i.rst then some [.rst]
  else
    match i.chTransfer p, i.cmdTransfer p with
    | none, none => some []
    | some t, none => some [.ch t]
    | none, some cw => some [.cmd cw]
    | some _, some _ => none

/-- The submissions that a sequence of transfers makes, "merged in arrival order", `cur` being the characters of the line
so far. A Reset abandons that line (R171, log 20). A command word inside a line has no value: the host "must not have a
line in progress on `ch_` while it uses `cmd_`". -/
def submissionsFrom (cur : Line) : List PortTransfer → Option (List HostAction)
  | [] => some []
  | .rst :: rest => (submissionsFrom [] rest).map (HostAction.reset :: ·)
  | .ch (.char ch) :: rest => submissionsFrom (cur ++ [ch]) rest
  | .ch .eol :: rest => (submissionsFrom [] rest).map (HostAction.submitLine cur :: ·)
  | .cmd cw :: rest => if cur = [] then (submissionsFrom [] rest).map (HostAction.submitCommand cw :: ·) else none

/-- The transfers by which the host takes an action on its input-side pins; reading and doing nothing take none. -/
def HostAction.portTransfers : HostAction → List PortTransfer
  | .reset => [.rst]
  | .submitLine l => (lineTransfers l).map PortTransfer.ch
  | .submitCommand cw => [.cmd cw]
  | .readStatus | .readStack | .readOut | .pause => []

/-- The core with what a sequence of transfers submits added to the host's actions to come. No value with an unbounded
`STACK_DEPTH`, or where the sequence has none. -/
def State.offerTransfers (s : State) (ts : List PortTransfer) : Option State :=
  match s.depth with
  | .unbounded => none
  | .finite _ => (submissionsFrom [] ts).map (fun acts => s.setInput (s.input ++ acts))

/-- A transfer on the `out_` port: an element, or the `out_last` that closes the record. -/
inductive OutTransfer where
  | element (e : Byte)
  | last
deriving DecidableEq, Repr

/-- A record on the `out_` port, bottom first: "an empty record is a lone `out_last`". -/
def recordTransfers : Record → List OutTransfer
  | .dump s => s.map OutTransfer.element ++ [.last]

/-- The records that a sequence of `out_` transfers completes, `cur` being the elements of the record so far. -/
def recordsFrom (cur : List Byte) : List OutTransfer → List Record
  | [] => []
  | .element e :: rest => recordsFrom (cur ++ [e]) rest
  | .last :: rest => .dump cur :: recordsFrom [] rest

/-- The dump stream still to be transferred: the untaken records (R176), oldest first, without the elements of the first
one that have been transferred. -/
def State.outStream (s : State) : List OutTransfer := (s.untaken.flatMap recordTransfers).drop s.outPos

/-- The part of the stream that the `out_` port offers: all of it while `busy` is low, nothing while it is high, since
"`ReadStack` and `ReadOut` are valid only while low". No value with an unbounded `STACK_DEPTH`. -/
def State.outPending (s : State) : Option (List OutTransfer) :=
  match s.depth with
  | .unbounded => none
  | .finite _ => some (if s.busy then [] else s.outStream)

/-- The output pins of the `out_` port; `data` has a value only while a transfer that carries an element is offered. -/
structure OutPins where
  valid : Bool
  data  : Option Byte
  last  : Bool
deriving DecidableEq, Repr

/-- What the port shows while it offers `pending`. -/
def outPins : List OutTransfer → OutPins
  | [] => ⟨false, none, false⟩
  | .element e :: _ => ⟨true, some e, false⟩
  | .last :: _ => ⟨true, none, true⟩

/-- What transfers at an edge: something "when both are high", `out_valid` and `out_ready`. -/
def outTransfer (o : OutPins) (ready : Bool) : Option OutTransfer :=
  if o.valid && ready then (if o.last then some .last else o.data.map OutTransfer.element) else none

/-- What a transfer on `out_` does: an element moves the position in its record; `out_last` closes the record, which the
host has then taken (R176), so that it is not offered again. -/
def State.afterOut (s : State) : OutTransfer → State
  | .element _ => s.setOutPos (s.outPos + 1)
  | .last => s.handOver (s.untaken.take 1) (s.taken + 1)

/-- One edge of the `out_` port, `out_ready` being `ready`: what transfers, if anything, and the state after it. -/
def State.outEdge (s : State) (ready : Bool) : Option (Option OutTransfer × State) :=
  s.outPending.map fun pending =>
    match outTransfer (outPins pending) ready with
    | none => (none, s)
    | some t => (some t, s.afterOut t)

/-- Edge after edge of the `out_` port: all that transfers, in order, and the state after it. -/
def State.outEdges (s : State) : List Bool → Option (List OutTransfer × State)
  | [] => some ([], s)
  | ready :: rest =>
    match s.outEdge ready with
    | none => none
    | some (t, s') => (s'.outEdges rest).map fun r => (t.toList ++ r.1, r.2)

end Sys2Proof.Machine
end

