-- ==== Sys2Proof/Machine/Render.lean ====
section
/-! DEFINITION. Text forms: the decimal numeral, the canonical token of a command (R75), the text of a dump record (R137)
and the host's rendering of the stack in its prompt (R177). No rule of the step depends on them. -/

namespace Sys2Proof.Machine

/-- The character of a decimal digit. -/
def decChar (d : Nat) : Byte := BitVec.ofNat 8 (0x30 + d)

/-- "a decimal numeral without leading zeros (`0` for 0x00, up to `255` for 0xFF)" (R137). -/
def decimalNumeral (v : Byte) : List Byte :=
  if v.toNat < 10 then [decChar v.toNat]
  else if v.toNat < 100 then [decChar (v.toNat / 10), decChar (v.toNat % 10)]
  else [decChar (v.toNat / 100), decChar (v.toNat / 10 % 10), decChar (v.toNat % 10)]

/-- The canonical token of an instruction (R75); "TERM has no canonical token". -/
def canonicalToken : Instr → Option Token
  | .push v => some (decimalNumeral v)
  | .add    => some [chPlus]
  | .xor    => some [chCaret]
  | .sub    => some [chMinus]
  | .mul    => some [chStar]
  | .div    => some [chSlash]
  | .dump   => some [chUnderscore, chLowerD]
  | .clr    => some [chUnderscore, chLowerC]
  | .term   => none

/-- `render_dec(Dump(s))`: `DEC:`, then one space and one numeral for each element, bottom first (R137). -/
def renderDec : Record → List Byte
  | .dump s => [0x44#8, 0x45#8, 0x43#8, 0x3A#8] ++ s.flatMap (fun e => chSpace :: decimalNumeral e)

/-- The character of a lowercase hexadecimal digit. -/
def hexChar (d : Nat) : Byte := if d < 10 then BitVec.ofNat 8 (0x30 + d) else BitVec.ofNat 8 (0x61 + (d - 10))

/-- An element as exactly two lowercase hexadecimal digits, high nibble first (R177). -/
def hexPair (v : Byte) : List Byte := [hexChar (v.toNat / 16), hexChar (v.toNat % 16)]

/-- The stack as the prompt renders it, before the prompt marker (R177). What an empty stack renders as is not given, so
it has no value (log 16). -/
def renderPrompt : List Byte → Option (List Byte)
  | [] => none
  | e :: rest => some (hexPair e ++ rest.flatMap (fun v => chSpace :: hexPair v))

end Sys2Proof.Machine
end

