-- ==== Sys2Proof/Safety.lean ====
section
/-! DEFINITION. What counts as a good run, in the terms the claims use: the invariant of the machine, and the three ends
of a run (R162). -/

namespace Sys2Proof.Machine

/-- `STACK_DEPTH` is a depth, and the stack fits in it: `0 <= depth <= STACK_DEPTH` (R6, R20). -/
abbrev State.StackFits (s : State) : Prop := s.depth.wf = true ∧ fitsIn s.depth s.stack.length = true

/-- The elements of the next record the host is to take; none where there is no such record. -/
def State.nextElements (s : State) : List Byte := (s.untaken.head?.map Record.elements).getD []

/-- The invariant of the machine. -/
abbrev State.Inv (s : State) : Prop :=
  s.StackFits ∧
  -- nothing of a line is left once STATUS has left RUN (R158)
  (s.status ≠ .run → s.line = []) ∧
  -- a token contains no space (R61)
  (∀ t ∈ s.line, tokenWf t = true) ∧
  -- the host has taken no record that is not there (R176)
  s.taken ≤ s.out.length ∧
  -- the `out_` port has transferred no element that the next record does not hold (R178)
  s.outPos ≤ s.nextElements.length ∧
  -- FAULT_INVARIANT is unreachable (R194)
  s.status ≠ .faultInvariant

/-- The three ways in which a run is over (R162). -/
inductive EndOfRun where
  | halted
  | faulted
  | inputExhausted
deriving DecidableEq, Repr

/-- Whether the run is over, and how (R162). (a), (b): `STATUS`. (c): RUN, nothing in progress, nothing more to come. -/
def State.endOfRun (s : State) : Option EndOfRun :=
  if s.status.isFault then some .faulted
  else if s.status = .halted then some .halted
  else if s.line = [] ∧ s.input = [] then some .inputExhausted
  else none

/-- How many turns an action of the host can take up: a line one for each of its tokens, any other action one (R160). -/
def HostAction.turns : HostAction → Nat
  | .submitLine line => (split line).length
  | .reset | .submitCommand _ | .readStatus | .readStack | .readOut | .pause => 1

/-- A safe run has not faulted: "a claim of correct termination must not hold" of a faulted one (R162 (b)). -/
def State.Safe (s : State) : Prop := s.status.isFault = false

end Sys2Proof.Machine
end

