-- ==== Sys2Proof/Certificates/Slice0/Obligations.lean ====
section
/-! DEFINITION. The statements for the provers. Each docstring names the rules of spec/ it formalises; where a clause
rests on a decision of the spec (D<n> of 92_eei_decisions.md), on an inference the spec marks as derived, or on a choice
of the model (a log entry), it says so. -/

open Sys2Proof Sys2Proof.Machine

/-! ## Encoding and text -/

/-- Command words written out from the tables of 30_encoding.md and 95_test_vectors.md 2.3 decode as those tables say. -/
def Obligations.WrittenWordsDecodeAsTabled : Prop :=
  decode 0b0000_0000_0000#12 = .push 0x00#8 ∧ decode 0b0000_1111_1111#12 = .push 0xFF#8 ∧
  decode 0b0001_0000_0000#12 = .add ∧ decode 0b0001_1111_1111#12 = .add ∧ decode 0b0010_1010_0101#12 = .xor ∧
  decode 0b0011_0000_0000#12 = .sub ∧ decode 0b0100_0000_0000#12 = .mul ∧ decode 0b0101_0000_0000#12 = .div ∧
  decode 0b0110_0000_0000#12 = .dump ∧ decode 0b0111_1111_1111#12 = .clr ∧ decode 0b1000_0000_0000#12 = .term ∧
  decode 0b1110_0000_0001#12 = .term ∧ decode 0b1111_0000_0000#12 = .term ∧ decode 0b1111_1111_1111#12 = .term

/-- The opcode map is total and unambiguous: every word is selected by the mask-and-match row of the instruction it
decodes to and by no other row; `op` alone selects; PUSH's immediate is `imm8` as it stands; every other bit is ignored
(R69, R70, R71, R72; the binary encoding is the spec's decisions D1 to D3). -/
def Obligations.EveryWordHasExactlyOneRow : Prop :=
  ∀ cw : CmdWord,
    packWord (opField cw) (immField cw) = cw ∧
    (decode cw).row.selects cw = true ∧
    (∀ i : Instr, i.row.selects cw = true → i.row = (decode cw).row) ∧
    (∀ imm8 : Byte, (∃ v, decode cw = .push v) → decode (packWord (opField cw) imm8) = .push imm8) ∧
    (∀ imm8 : Byte, (¬ ∃ v, decode cw = .push v) → decode (packWord (opField cw) imm8) = decode cw) ∧
    (cw.getLsbD 11 = true ↔ decode cw = .term)

/-- Decode, encode and the canonical text agree, for every instruction with every operand: the canonical word decodes to
the instruction it encodes; the canonical token (R75) classifies to that word; only TERM has none (R75). The words are
the spec's decision D1. -/
def Obligations.InstructionsRoundTripThroughWordAndText : Prop :=
  ∀ i : Instr, i.wf = true →
    decode (encode i) = i ∧
    (∀ t, canonicalToken i = some t → classify t = encode i ∧ decode (classify t) = i ∧ tokenWf t = true) ∧
    (canonicalToken i = none ↔ i = .term)

/-- Encoding what a word decodes to gives the word with its ignored bits at their canonical values, `imm8 = 0x00` for
everything but PUSH and 0xF00 for TERM, and the tokenizer produces such words only (R71, R72, R73; D2, D3). -/
def Obligations.TokenizerProducesCanonicalWords : Prop :=
  (∀ (op : BitVec 4) (imm8 : Byte),
    encode (decode (packWord op imm8)) =
      if op = 0x0#4 then packWord 0x0#4 imm8 else if op.toNat < 8 then packWord op 0x00#8 else 0xF00#12) ∧
  ∀ t : Token, encode (decode (classify t)) = classify t

/-- Splitting by single spaces: n spaces give n + 1 tokens, no token holds a space, joining the tokens with single
spaces gives the line back, and the empty line is one empty token (R61; the edge cases are the spec's decision D7). -/
def Obligations.SplitIsBySingleSpaces : Prop :=
  (∀ line : Line,
    (split line).length = line.count chSpace + 1 ∧
    (∀ t ∈ split line, chSpace ∉ t) ∧
    [chSpace].intercalate (split line) = line) ∧
  split [] = [[]]

/-- There are exactly five operator tokens, of one character, and exactly two directive tokens, of two characters; each
classifies to the word of its instruction (R63, R64). -/
def Obligations.OperatorAndDirectiveTokens : Prop :=
  (∀ (t : Token) (i : Instr), operatorToken t = some i ↔
    (t, i) ∈ [([0x2B#8], Instr.add), ([0x5E#8], .xor), ([0x2D#8], .sub), ([0x2A#8], .mul), ([0x2F#8], .div)]) ∧
  (∀ (t : Token) (i : Instr), directiveToken t = some i ↔
    (t, i) ∈ [([0x5F#8, 0x64#8], Instr.dump), ([0x5F#8, 0x63#8], .clr)]) ∧
  (∀ (t : Token) (i : Instr), operatorToken t = some i ∨ directiveToken t = some i → decode (classify t) = i)

/-- The classes operator, directive and literal are pairwise disjoint, and a token is the terminating signal 0xF00
exactly when it is in none of them, the empty token among those; a character that the grammar does not name, a line
terminator left in the line among them, makes its token a terminating one (R60, R62, which the spec marks as derived,
R68, R179 (a); that a character is a byte is the spec's decision D11). -/
def Obligations.TokenClassesAreDisjoint : Prop :=
  (∀ t : Token,
    ((operatorToken t).isSome → directiveToken t = none ∧ literal t = none) ∧
    ((directiveToken t).isSome → literal t = none) ∧
    (classify t = 0xF00#12 ↔ operatorToken t = none ∧ directiveToken t = none ∧ literal t = none) ∧
    (∀ ch ∈ t, ch ∉ [0x2B#8, 0x5E#8, 0x2D#8, 0x2A#8, 0x2F#8, 0x5F#8, 0x78#8] → hexDigit ch = none →
      classify t = 0xF00#12)) ∧
  classify [] = 0xF00#12

/-- A decimal literal is one or more digits `0` to `9` whose number in base 10 is at most 255, and that number is its
value; leading zeros do not matter (R65; the exact syntax is the spec's decision D9). -/
def Obligations.DecimalLiteralSyntax : Prop :=
  (∀ (t : Token) (v : Byte),
    decLiteral t = some v ↔
      t ≠ [] ∧ (∀ ch ∈ t, 0x30 ≤ ch.toNat ∧ ch.toNat ≤ 0x39) ∧
      Nat.ofDigits 10 (t.map (fun ch => ch.toNat - 0x30)).reverse = v.toNat) ∧
  (∀ t : Token, t ≠ [] → decLiteral (0x30#8 :: t) = decLiteral t)

/-- A hexadecimal literal is, after at most one leading `0x`, one or more digits of either case whose number in base 16
is at most 255 (R66; the exact syntax is the spec's decision D10). -/
def Obligations.HexadecimalLiteralSyntax : Prop :=
  (∀ (t : Token) (v : Byte),
    hexLiteral t = some v ↔
      stripHexMark t ≠ [] ∧ (∀ ch ∈ stripHexMark t, (hexDigit ch).isSome) ∧
      Nat.ofDigits 16 ((stripHexMark t).map (fun ch => (hexDigit ch).getD 0)).reverse = v.toNat) ∧
  (∀ rest : Token, stripHexMark (0x30#8 :: 0x78#8 :: rest) = rest) ∧
  (∀ t : Token, ¬ [0x30#8, 0x78#8] <+: t → stripHexMark t = t) ∧
  (∀ ch : Byte, ∀ d : Nat, hexDigit ch = some d ↔
    (d < 10 ∧ ch.toNat = 0x30 + d) ∨ (10 ≤ d ∧ d < 16 ∧ (ch.toNat = 0x61 + (d - 10) ∨ ch.toNat = 0x41 + (d - 10))))

/-- Decimal first, then hexadecimal; a string of decimal digits above 255 is no literal at all, so it is a TERM (R67; the
last clause is one the spec marks as derived). -/
def Obligations.LiteralIsDecimalThenHexadecimal : Prop :=
  ∀ t : Token,
    (∀ v, literal t = some v ↔ decLiteral t = some v ∨ (decLiteral t = none ∧ hexLiteral t = some v)) ∧
    ((∀ ch ∈ t, 0x30 ≤ ch.toNat ∧ ch.toNat ≤ 0x39) →
      255 < Nat.ofDigits 10 (t.map (fun ch => ch.toNat - 0x30)).reverse → literal t = none ∧ classify t = 0xF00#12)

/-- A streaming recogniser with the finite registers that R67 lists reads every token, of any length, as `literal` does
(R67, R31 (c); what the registers are called is the model's). -/
def Obligations.StreamingRecogniserReadsLiterals : Prop :=
  ∀ t : Token, literalStream t = literal t

/-! ## The field unit and the inverse table -/

/-- `gf_add` is the exclusive or bit by bit; commutative, associative, every element its own inverse, identity 0; no
carry (R90). -/
def Obligations.FieldAdditionIsBitwiseXor : Prop :=
  (∀ a b c : Byte,
    (∀ k < 8, (gfAdd a b).getLsbD k = Bool.xor (a.getLsbD k) (b.getLsbD k)) ∧
    gfAdd a b = gfAdd b a ∧ gfAdd (gfAdd a b) c = gfAdd a (gfAdd b c) ∧
    gfAdd a a = 0x00#8 ∧ gfAdd a 0x00#8 = a) ∧
  gfAdd 0xFF#8 0x01#8 = 0xFE#8 ∧ gfAdd 0xC8#8 0x64#8 = 0xAC#8

/-- `xtime`: shift left within 8 bits, XOR 0x1B when bit 7 was set; it is multiplication by x modulo the polynomial (R91;
the last reading is one the spec marks as derived). -/
def Obligations.XtimeShiftsAndReduces : Prop :=
  (∀ a : Byte,
    (a.getLsbD 7 = false → (xtime a).toNat = 2 * a.toNat) ∧
    (a.getLsbD 7 = true → xtime a = BitVec.ofNat 8 (2 * a.toNat - 256) ^^^ 0x1B#8) ∧
    xtime a = polyRemainder (a.zeroExtend 16 <<< 1)) ∧
  xtime 0x00#8 = 0x00#8 ∧ xtime 0x80#8 = 0x1B#8 ∧ xtime 0xFF#8 = 0xE5#8 ∧ xtime 0x8D#8 = 0x01#8 ∧
  xtime 0x57#8 = 0xAE#8 ∧ xtime 0xAE#8 = 0x47#8

/-- The closed form: the multiplier's result is the XOR, over the set bits k of the multiplier, of `xtime^k` of the
multiplicand (R93, which the spec marks as derived). -/
def Obligations.MultiplierClosedForm : Prop :=
  ∀ a b : Byte, gfMul a b = xorOverBits (fun k => xtimeIter k a) b 8

/-- The 8-iteration shift-and-reduce multiplier computes the carry-less polynomial product reduced modulo
x^8 + x^4 + x^3 + x + 1 (R92; that the two agree is what the spec derives in R93). -/
def Obligations.MultiplierIsReducedPolynomialProduct : Prop :=
  ∀ a b : Byte, gfMul a b = polyRemainder (carrylessProduct a b)

/-- The laws of the field unit (R94). -/
def Obligations.FieldLaws : Prop :=
  ∀ a b c : Byte,
    gfAdd a a = 0x00#8 ∧ gfAdd a b = gfAdd b a ∧ gfMul a b = gfMul b a ∧
    gfMul a 0x00#8 = 0x00#8 ∧ gfMul a 0x01#8 = a ∧
    gfMul a (gfAdd b c) = gfAdd (gfMul a b) (gfMul a c) ∧
    (a ≠ 0x00#8 → ∃ i, invert a = some i ∧ gfMul a i = 0x01#8) ∧
    (b ≠ 0x00#8 → gfDiv (gfMul a b) b = some a)

/-- The table: for every nonzero i exactly one j gives `gf_mul(i, j) = 1`, it is nonzero, and it is what `RomRead(i)`
returns (R43, R105; uniqueness is derived in the spec). -/
def Obligations.InverseExistsAndIsUnique : Prop :=
  ∀ i : Byte, i ≠ 0x00#8 →
    ∃ j : Byte, j ≠ 0x00#8 ∧ romRead i = some j ∧ ∀ k : Byte, gfMul i k = 0x01#8 ↔ k = j

/-- Inversion has no value at 0, is an involution on the nonzero bytes, and fixes 0x01 only (R96; the two last facts are
derived in the spec; "no value" is log 12). -/
def Obligations.InversionIsAnInvolution : Prop :=
  invert 0x00#8 = none ∧
  ∀ a : Byte, a ≠ 0x00#8 → ∃ b, invert a = some b ∧ invert b = some a ∧ (b = a ↔ a = 0x01#8)

/-- The document's builder, run as written, resolves entries 1 to 255 to what `RomRead` returns and leaves entry 0
unresolved (R106), and so does the listing under R107 (derived in the spec). -/
def Obligations.BuilderBuildsTheTable : Prop :=
  buildInv.length = 256 ∧ invListing.length = 256 ∧
  ∀ i : Byte, tableEntry buildInv i = romRead i ∧ tableEntry invListing i = romRead i

/-- Division fails exactly for a zero divisor, 0/0 included, and is otherwise multiplication by the inverse, with the
corner cases of R97. A failure is "no value" here; that DIV then raises FAULT_DIV0 is DivisionByZeroFaults. -/
def Obligations.DivisionIsMultiplicationByTheInverse : Prop :=
  (∀ a b : Byte, gfDiv a b = none ↔ b = 0x00#8) ∧
  (∀ a b : Byte, b ≠ 0x00#8 → ∃ i, invert b = some i ∧ gfDiv a b = some (gfMul a i)) ∧
  (∀ b : Byte, b ≠ 0x00#8 → gfDiv 0x00#8 b = some 0x00#8 ∧ gfDiv b b = some 0x01#8 ∧ gfDiv 0x01#8 b = invert b) ∧
  (∀ a : Byte, gfDiv a 0x01#8 = some a)

/-! ## The primitives -/

/-- `Push(v)`: on a full finite stack only STATUS changes, to FAULT_STACK_OVF; otherwise v is the new top and nothing
else changes (R41; the overflow branch is the spec's decision D4). -/
def Obligations.PushPrimitive : Prop :=
  ∀ (s : State) (v : Byte),
    (s.depth = .finite s.stack.length → s.push v = { s with status := .faultStackOvf }) ∧
    (s.depth ≠ .finite s.stack.length → s.push v = { s with stack := s.stack ++ [v] })

/-- `PopOr(d)`: the top is removed and returned; an empty stack returns d and stays empty; each of two pops applies the
rule on its own (R42). -/
def Obligations.PopOrPrimitive : Prop :=
  ∀ (s : State) (d : Byte),
    (∀ low v, s.stack = low ++ [v] → s.popOr d = (v, { s with stack := low })) ∧
    (s.stack = [] → s.popOr d = (d, s)) ∧
    (∀ x, s.stack = [x] → s.popTwo d = (x, d, { s with stack := [] })) ∧
    (∀ low y x, s.stack = low ++ [y, x] → s.popTwo d = (x, y, { s with stack := low }))

/-- `raise` writes STATUS and nothing else; the codes of the four events are 1 to 4 and RUN is 0 (R190, R198; the
register and its codes are the spec's decision D14). -/
def Obligations.RaiseWritesStatusOnly : Prop :=
  (∀ (s : State) (c : Cause), s.raise c = { s with status := c.status }) ∧
  Status.run.code = 0#3 ∧ Cause.halted.status.code = 1#3 ∧ Cause.faultDiv0.status.code = 2#3 ∧
  Cause.faultStackOvf.status.code = 3#3 ∧ Cause.faultInvariant.status.code = 4#3

/-! ## The instructions -/

/-- ADD, XOR and SUB: one meaning under three encodings. Any `imm8`, the token of one character, and the result on a
stack of none, one, and two or more elements; the status, the log and everything else are unchanged (R115, R116, R117). -/
def Obligations.AddXorSubResults : Prop :=
  ∀ (i : Instr) (op : BitVec 4) (ch : Byte),
    (i = .add ∧ op = 0x1#4 ∧ ch = 0x2B#8) ∨ (i = .xor ∧ op = 0x2#4 ∧ ch = 0x5E#8) ∨
      (i = .sub ∧ op = 0x3#4 ∧ ch = 0x2D#8) →
    (∀ imm8 : Byte, decode (packWord op imm8) = i) ∧ classify [ch] = packWord op 0x00#8 ∧
    ∀ s : State, s.status = .run → s.StackFits →
      (s.stack = [] → exec i s = .next { s with stack := [0x00#8] }) ∧
      (∀ x, s.stack = [x] → exec i s = .next { s with stack := [x] }) ∧
      (∀ low y x, s.stack = low ++ [y, x] → exec i s = .next { s with stack := low ++ [x ^^^ y] })

/-- MUL: any `imm8`, the token `*`, and the result on a stack of none, one, and two or more elements, the missing operand
being 0x01; everything else is unchanged (R125). -/
def Obligations.MulResults : Prop :=
  (∀ imm8 : Byte, decode (packWord 0x4#4 imm8) = .mul) ∧ classify [0x2A#8] = 0x400#12 ∧
  ∀ s : State, s.status = .run → s.StackFits →
    (s.stack = [] → exec .mul s = .next { s with stack := [0x01#8] }) ∧
    (∀ x, s.stack = [x] → exec .mul s = .next { s with stack := [x] }) ∧
    (∀ low y x, s.stack = low ++ [y, x] →
      exec .mul s = .next { s with stack := low ++ [gfMul x y] } ∧ gfMul x y = gfMul y x ∧
      (x = 0x00#8 ∨ y = 0x00#8 → gfMul x y = 0x00#8))

/-- DIV with a nonzero divisor, which is the first-popped operand: the quotient of the second-popped by it, with the
corner cases of R126; everything else is unchanged (R126, its non-failing part). -/
def Obligations.DivResults : Prop :=
  (∀ imm8 : Byte, decode (packWord 0x5#4 imm8) = .div) ∧ classify [0x2F#8] = 0x500#12 ∧
  ∀ s : State, s.status = .run → s.StackFits → ∀ x : Byte, x ≠ 0x00#8 →
    (s.stack = [x] → exec .div s = .next { s with stack := [0x00#8] }) ∧
    (∀ low y, s.stack = low ++ [y, x] → ∃ i, invert x = some i ∧
      exec .div s = .next { s with stack := low ++ [gfMul y i] } ∧
      (y = 0x00#8 → gfMul y i = 0x00#8) ∧ (y = x → gfMul y i = 0x01#8) ∧ (x = 0x01#8 → gfMul y i = y) ∧
      (y = 0x01#8 → gfMul y i = i))

/-- DIV whose first-popped operand is 0x00, on the stack or by default: FAULT_DIV0, and the stack and everything else as
before (R126, R192; that the stack is as before and the core stops is the spec's reading, D5). -/
def Obligations.DivisionByZeroFaults : Prop :=
  ∀ s : State, s.status = .run →
    (s.stack = [] ∨ ∃ low, s.stack = low ++ [0x00#8]) → exec .div s = .next { s with status := .faultDiv0 }

/-- PUSH: any literal token gives the word with its value; the immediate becomes the top, or, on a full finite stack,
FAULT_STACK_OVF is raised and nothing else changes (R145; the overflow is the spec's decision D4). -/
def Obligations.PushResults : Prop :=
  (∀ imm8 : Byte, decode (packWord 0x0#4 imm8) = .push imm8) ∧
  (∀ (t : Token) (v : Byte), literal t = some v → classify t = packWord 0x0#4 v) ∧
  ∀ (s : State) (imm8 : Byte), s.status = .run →
    (s.depth ≠ .finite s.stack.length → exec (.push imm8) s = .next { s with stack := s.stack ++ [imm8] }) ∧
    (s.depth = .finite s.stack.length → exec (.push imm8) s = .next { s with status := .faultStackOvf })

/-- DUMP: one record of the whole stack, bottom first, is appended to the log, the empty record included; nothing else
changes; after a fault or a halt it has no next state (R135). -/
def Obligations.DumpAppendsOneRecord : Prop :=
  (∀ imm8 : Byte, decode (packWord 0x6#4 imm8) = .dump) ∧ classify [0x5F#8, 0x64#8] = 0x600#12 ∧
  (∀ s : State, s.status = .run → exec .dump s = .next { s with out := s.out ++ [.dump s.stack] }) ∧
  ∀ s t : State, exec .dump s = .next t → s.status = .run

/-- CLR: the stack becomes empty whatever it held, and nothing else changes; it has no next state after a fault or a halt,
so it clears neither; it is the only instruction that lowers the depth by more than one (R136). -/
def Obligations.ClrEmptiesTheStack : Prop :=
  (∀ imm8 : Byte, decode (packWord 0x7#4 imm8) = .clr) ∧ classify [0x5F#8, 0x63#8] = 0x700#12 ∧
  (∀ s : State, s.status = .run → exec .clr s = .next { s with stack := [] }) ∧
  (∀ s t : State, exec .clr s = .next t → s.status = .run) ∧
  ∀ (i : Instr) (s t : State), s.StackFits → exec i s = .next t → t.stack.length + 1 < s.stack.length → i = .clr

/-- TERM: every `op` with bit 3 set and every token of no other class; STATUS becomes HALTED and nothing else changes
(R146, R191; that the stack survives and stays readable is the spec's decision D6). -/
def Obligations.TermHalts : Prop :=
  (∀ (op : BitVec 4) (imm8 : Byte), 8 ≤ op.toNat → decode (packWord op imm8) = .term) ∧
  (∀ t : Token, operatorToken t = none → directiveToken t = none → literal t = none → classify t = 0xF00#12) ∧
  ∀ s : State, s.status = .run → exec .term s = .next { s with status := .halted }

/-- Only PUSH can overflow a finite stack: a binary operator on a stack that fits never raises FAULT_STACK_OVF (R44,
which the spec marks as derived). -/
def Obligations.BinaryOperatorsNeverOverflow : Prop :=
  ∀ (s t : State) (i : Instr), s.StackFits → i ∈ [Instr.add, .xor, .sub, .mul, .div] → exec i s = .next t →
    t.status ≠ .faultStackOvf ∧ t.stack.length ≤ max s.stack.length 1

/-- Every instruction executes while STATUS = RUN, and STATUS leaves RUN exactly at TERM, at DIV with a zero first-popped
operand, and at PUSH on a full finite stack; at most one event arises, and FAULT_INVARIANT never (R155, R190, R194, R197;
the codes and what follows a fault are decisions D4, D5, D14, D24). -/
def Obligations.StatusLeavesRunExactlyThen : Prop :=
  ∀ (i : Instr) (s : State), s.status = .run → s.StackFits →
    ∃ t, exec i s = .next t ∧
      (t.status = .halted ↔ i = .term) ∧
      (t.status = .faultDiv0 ↔ i = .div ∧ s.stack.getLast?.getD 0x00#8 = 0x00#8) ∧
      (t.status = .faultStackOvf ↔ (∃ v, i = .push v) ∧ s.depth = .finite s.stack.length) ∧
      t.status ≠ .faultInvariant

/-- Stack underflow is no event: with fewer than two elements the binary operators run with their defaults, and the only
event then is DIV's own zero divisor (R195, R126, R192; that the failing DIV leaves the stack as before is the spec's
decision D5; what the defaults give is AddXorSubResults, MulResults, DivResults and DivisionByZeroFaults). -/
def Obligations.UnderflowIsNoEvent : Prop :=
  ∀ (s : State) (i : Instr), s.status = .run → s.StackFits → s.stack.length < 2 →
    i ∈ [Instr.add, .xor, .sub, .mul, .div] →
    ∃ t, exec i s = .next t ∧ t.out = s.out ∧
      ((t.status = .run ∧ t.stack.length = 1) ∨
       (i = .div ∧ t.status = .faultDiv0 ∧ t.stack = s.stack ∧ (s.stack = [] ∨ s.stack = [0x00#8])))

/-- Events are precise: an instruction that leaves STATUS other than RUN has had no other effect (R198; that the stack is
as before is the spec's decisions D4 and D5, and D6 for TERM). -/
def Obligations.EventsArePrecise : Prop :=
  ∀ (i : Instr) (s t : State), s.StackFits → exec i s = .next t → t.status ≠ .run →
    t = { s with status := t.status }

/-- While STATUS is not RUN no instruction has a step (R155, R158; that the model answers a fault is its own choice,
log 6). -/
def Obligations.StoppedCoreExecutesNothing : Prop :=
  ∀ (i : Instr) (s : State), s.status ≠ .run → exec i s = .fault (.stopped s.status)

/-- The frame of all nine: what an instruction leaves unchanged. Only DUMP writes the log, one record of the stack; DUMP
and TERM do not write the stack; only PUSH, DIV and TERM can write STATUS; no instruction writes the parameter, the line,
the cursor, the host's actions, the read pointer or the replies (R21, R25, R26, R28, R135; derived, over the model's own
fields). -/
def Obligations.InstructionFrame : Prop :=
  ∀ (i : Instr) (s t : State), s.StackFits → exec i s = .next t →
    (i ≠ .dump → t.out = s.out) ∧
    (i = .dump → t.out = s.out ++ [.dump s.stack]) ∧
    (i = .dump ∨ i = .term → t.stack = s.stack) ∧
    (i ∈ [Instr.add, .xor, .sub, .mul, .dump, .clr] → t.status = s.status) ∧
    t.depth = s.depth ∧ t.line = s.line ∧ t.cursor = s.cursor ∧ t.input = s.input ∧ t.taken = s.taken ∧
    t.outPos = s.outPos ∧ t.replies = s.replies

/-- The stack is written at the top only, and what lies below stays as it is. PUSH removes nothing and adds its immediate,
or nothing on a full finite stack; DUMP and TERM remove and add nothing; a binary operator on a stack that fits removes
two elements, or as many as there are, and adds one, or, when it raises its event, removes and adds nothing (R21, R23, R41,
R42; the events' effect on the stack is decisions D4 and D5; CLR, which removes all, is ClrEmptiesTheStack). -/
def Obligations.StackIsWrittenAtTheTopOnly : Prop :=
  ∀ (i : Instr) (s t : State), exec i s = .next t → i ≠ .clr →
    ∃ low removed added, s.stack = low ++ removed ∧ t.stack = low ++ added ∧ removed.length ≤ 2 ∧ added.length ≤ 1 ∧
      (∀ v, i = .push v → removed = [] ∧ added = if s.depth = .finite s.stack.length then [] else [v]) ∧
      (i = .dump ∨ i = .term → removed = [] ∧ added = []) ∧
      (i ∈ [Instr.add, .xor, .sub, .mul, .div] → s.StackFits →
        (t.status = .run → removed.length = min 2 s.stack.length ∧ added.length = 1) ∧
        (t.status ≠ .run → removed = [] ∧ added = []))

/-- Nothing below the two topmost elements is read: for every STACK_DEPTH, what an instruction other than DUMP and CLR
does to a stack that fits and has two elements on top is the same whatever lies below them. PUSH on a finite stack also
looks at how many elements there are (R41), so for it the lower parts are of one length n (R21, R26, R41, R164). -/
def Obligations.OnlyTheTopTwoAreRead : Prop :=
  ∀ (i : Instr) (s : State) (y x : Byte) (n : Nat), s.status = .run → i ≠ .dump → i ≠ .clr →
    ∃ (top : List Byte) (st : Status), ∀ low : List Byte,
      State.StackFits { s with stack := low ++ [y, x] } →
      ((∃ v, i = .push v) → s.depth = .unbounded ∨ low.length = n) →
      exec i { s with stack := low ++ [y, x] } = .next { s with stack := low ++ top, status := st }

/-! ## The step, the host and whole runs -/

/-- A step runs the decoded instruction, level B: when the core is idle and running and the host submits a word, the step
is `exec` of the word's instruction, the word taken and the cursor's command index one further (R155, R173, R25; D1, D18;
that a submitted word leaves the pair (line, token) alone is the model's choice, log 9; log 2). -/
def Obligations.StepRunsTheSubmittedWord : Prop :=
  ∀ (s : State) (cw : CmdWord) (more : List HostAction),
    s.status = .run → s.line = [] → s.input = .submitCommand cw :: more →
    step s = exec (decode cw)
      { s with input := more, cursor := ⟨s.cursor.line, s.cursor.token, s.cursor.command + 1⟩ }

/-- A step runs the decoded instruction, level T: when a line is in progress and the host does not reset or read the
status, the step is `exec` of the next token's instruction, the token taken and the cursor one further, and the rest of
the line is dropped if STATUS has left RUN (R25, R156, R157, R158; D18; that both cursors advance and that the pair is
(line + 1, 0) after the last token is the model's choice, log 9; log 3, 4, 8). -/
def Obligations.StepRunsTheNextToken : Prop :=
  ∀ (s u : State) (t : Token) (rest : List Token),
    s.line = t :: rest → s.input.head? ≠ some .reset → s.input.head? ≠ some .readStatus →
    exec (decode (classify t))
      { s with
        line := rest
        cursor := if rest = [] then ⟨s.cursor.line + 1, 0, s.cursor.command + 1⟩
                  else ⟨s.cursor.line, s.cursor.token + 1, s.cursor.command + 1⟩
        input := if s.input.head? = some .pause then s.input.tail else s.input } = .next u →
    step s = .next { u with line := if u.status = .run then u.line else [] }

/-- Taking up a submitted line executes its first token in the same step: the step is the one of the core that has the
whole line in progress while the host does nothing (R157, R172; that the two are one step is the model's inference, log 8;
the pause is log 3). -/
def Obligations.SubmittedLineStartsAtOnce : Prop :=
  ∀ (s : State) (l : Line) (more : List HostAction),
    s.status = .run → s.line = [] → s.input = .submitLine l :: more →
    step s = step { s with line := split l, input := .pause :: more }

/-- A submission to a core whose STATUS is not RUN is not accepted and has no effect (R158, R172, R173; D21, log 5). -/
def Obligations.StoppedCoreAcceptsNothing : Prop :=
  ∀ (s : State) (l : Line) (cw : CmdWord) (more : List HostAction), s.status ≠ .run → s.line = [] →
    (s.input = .submitLine l :: more ∨ s.input = .submitCommand cw :: more) →
    step s = .next { s with input := more }

/-- Once STATUS has left RUN, only Reset changes the stack, the status, the log or the cursor (R27, R158, R200; D21). -/
def Obligations.OnlyResetLeavesAStop : Prop :=
  ∀ s t : State, s.status ≠ .run → step s = .next t → s.input.head? ≠ some .reset →
    t.stack = s.stack ∧ t.status = s.status ∧ t.out = s.out ∧ t.cursor = s.cursor ∧ t.depth = s.depth

/-- Reset, at any time and in any state: every piece of the core's state has its reset value, the parameter is kept, the
line in progress is abandoned (R33, R171, R216; D16; what the host holds is kept, log 10). -/
def Obligations.ResetRestoresTheResetState : Prop :=
  ∀ (s : State) (more : List HostAction), s.input = .reset :: more →
    step s = .next
      { stack := [], status := .run, out := [], depth := s.depth, line := [], cursor := ⟨0, 0, 0⟩, input := more,
        taken := 0, outPos := 0, replies := s.replies }

/-- The state right after reset (R33; the values of STATUS and OUT are the spec's decision D16; the parameter, the host's
actions, the read pointer and the replies are the model's choices, log 1, 2, 10). -/
def Obligations.ResetStateValues : Prop :=
  State.reset.stack = [] ∧ State.reset.status.code = 0b000#3 ∧ State.reset.out = [] ∧
  State.reset.cursor = ⟨0, 0, 0⟩ ∧ State.reset.line = [] ∧ State.reset.depth = .unbounded ∧
  State.reset.input = [] ∧ State.reset.taken = 0 ∧ State.reset.outPos = 0 ∧ State.reset.replies = []

/-- The host's reads return the status code at any time, the whole stack and the untaken records when the core is idle,
and change nothing but the host's own read pointer (R174, R175, R176; D13, D14; log 10). -/
def Obligations.HostReadsChangeNothing : Prop :=
  ∀ (s : State) (more : List HostAction),
    (s.input = .readStatus :: more →
      step s = .next { s with input := more, replies := s.replies ++ [.status s.status.code] }) ∧
    (s.input = .readStack :: more → s.line = [] →
      step s = .next { s with input := more, replies := s.replies ++ [.stack s.stack] }) ∧
    (s.input = .readOut :: more → s.line = [] →
      step s = .next { s with input := more, replies := s.replies ++ [.out (s.out.drop s.taken)],
                              taken := s.out.length, outPos := 0 })

/-- The log only grows, except at Reset, and grows by one record of the current stack at a time; no step changes
STACK_DEPTH (R6, log 1), and the host forgets no reply (log 10) (R28, R135; D13). -/
def Obligations.OutputLogIsAppendOnly : Prop :=
  ∀ s t : State, step s = .next t →
    (s.input.head? ≠ some .reset → t.out = s.out ∨ t.out = s.out ++ [.dump s.stack]) ∧
    t.depth = s.depth ∧ s.replies <+: t.replies

/-- One step executes at most one instruction: either the architectural state and the cursor are unchanged, or exactly
one instruction has executed on the state before and the cursor is one further, to the next token, to the next line, or
(level B) to the next word only (R25, R50, R160; D18, log 9). -/
def Obligations.OneStepExecutesAtMostOneInstruction : Prop :=
  ∀ s t : State, step s = .next t → s.input.head? ≠ some .reset →
    (t.arch = s.arch ∧ t.cursor = s.cursor) ∨
    (s.status = .run ∧ (∃ i u, exec i s = .next u ∧ t.arch = u.arch) ∧
      t.cursor.command = s.cursor.command + 1 ∧
      ((t.cursor.line = s.cursor.line ∧ t.cursor.token = s.cursor.token) ∨
       (t.cursor.line = s.cursor.line ∧ t.cursor.token = s.cursor.token + 1) ∨
       (t.cursor.line = s.cursor.line + 1 ∧ t.cursor.token = 0)))

/-- A running core always has a step, and with nothing in progress and nothing offered it stays as it is (log 7); a core
that meets the invariant has no step exactly when it has stopped and the host has nothing left to do, and then answers the
fault `stopped` (R155, R159, R162, R223; that fault is the model's choice, log 6). -/
def Obligations.StepStopsOnlyWhenTheRunIsOver : Prop :=
  (∀ s : State, s.status = .run → ∃ t, step s = .next t) ∧
  (∀ s : State, s.status = .run → s.line = [] → s.input = [] → step s = .next s) ∧
  (∀ s : State, s.Inv → s.status ≠ .run → s.input = [] → step s = .fault (.stopped s.status)) ∧
  (∀ s : State, s.Inv →
    (∃ t, step s = .next t) ∨ (s.status ≠ .run ∧ s.input = [] ∧ step s = .fault (.stopped s.status)))

/-- The reset state meets the invariant, for every legal STACK_DEPTH (R6, R33). -/
def Obligations.ResetStateMeetsTheInvariant : Prop :=
  State.reset.Inv ∧ ∀ d : StackDepth, d.wf = true → (State.resetFor d).Inv

/-- Every step keeps the invariant: the stack fits STACK_DEPTH, a stopped core has no line in progress, tokens hold no
space, the host has taken no record, and the `out_` port transferred no element, that is not there, and FAULT_INVARIANT
is not reached (R6, R20, R61, R158, R176, R178, R194; the position of the port is log 18). -/
def Obligations.EveryStepKeepsTheInvariant : Prop :=
  ∀ s t : State, s.Inv → step s = .next t → t.Inv

/-- Command words, one a step: from any idle core, submitting n words takes n steps and ends in the n-fold application of
the step function, the words after a stop having no effect (R50, R158, R173; D1, D21; that a word which a stopped core
does not accept takes a step and is over is the model's inference, log 5). -/
def Obligations.SubmittedWordsFoldTheStep : Prop :=
  ∀ (s : State) (cws : List CmdWord), s.line = [] →
    ∃ t, Host.Core.run core cws.length { s with input := cws.map HostAction.submitCommand } = .next t ∧
      t.arch = (runCommands s cws).arch ∧ t.line = [] ∧ t.input = []

/-- A submitted line, token by token: from any idle running core whose host then waits (its next action is no Reset, no
ReadStatus and no pause), the machine reaches in at least one and at most as many steps as the line has tokens an idle
state with the architectural state of the spec's `exec_line`; it takes all of them unless STATUS leaves RUN (R157, R158,
R172; log 3, 4; that one token is one step, the first with the taking up of the line, is the model's inference, log 8). -/
def Obligations.SubmittedLineExecutesInOrder : Prop :=
  ∀ (s : State) (l : Line) (more : List HostAction),
    s.status = .run → s.line = [] → s.input = .submitLine l :: more →
    more.head? ≠ some .reset → more.head? ≠ some .readStatus → more.head? ≠ some .pause →
    ∃ (n : Nat) (t : State), 1 ≤ n ∧ n ≤ (split l).length ∧ Host.Core.run core n s = .next t ∧
      t.arch = (execLine s l).arch ∧ t.line = [] ∧ t.input = more ∧ (t.status = .run → n = (split l).length)

/-- Level T and level B agree: a line and the command words of its tokens leave the same architectural state (R156 and
R173, the first of which the spec marks as derived; D1). -/
def Obligations.LineEqualsItsCommandWords : Prop :=
  ∀ (s : State) (l : Line), s.status = .run → s.line = [] →
    ∃ (n m : Nat) (t u : State),
      Host.Core.run core n { s with input := [.submitLine l] } = .next t ∧ t.line = [] ∧ t.input = [] ∧
      Host.Core.run core m { s with input := (split l).map (fun tok => .submitCommand (classify tok)) } = .next u ∧
      u.input = [] ∧ t.arch = u.arch

/-- A finite input is consumed in finitely many steps, at most one for each token and each action of the host, and the
run is then over in one of the three ways of R162 (R160, R162, R223; log 2). -/
def Obligations.FiniteInputIsConsumed : Prop :=
  ∀ s : State, s.Inv →
    ∃ (n : Nat) (t : State),
      n ≤ s.line.length + (s.input.map HostAction.turns).sum ∧
      Host.Core.run core n s = .next t ∧ t.line = [] ∧ t.input = [] ∧ t.endOfRun.isSome = true

/-! ## Renderings and pins -/

/-- The text of a dump record is `DEC:` and then, single spaces between, one numeral for each element, bottom first, each
of which reads back as the element (R137; the text form is the spec's decision D13). -/
def Obligations.DumpTextIsTheNumerals : Prop :=
  ∀ s : List Byte,
    split (renderDec (.dump s)) = [0x44#8, 0x45#8, 0x43#8, 0x3A#8] :: s.map decimalNumeral ∧
    ∀ v ∈ s, decLiteral (decimalNumeral v) = some v ∧
      ((decimalNumeral v).head? = some 0x30#8 → decimalNumeral v = [0x30#8])

/-- The prompt's rendering of a nonempty stack is, single spaces between, each element as two lowercase hexadecimal
digits, bottom first (R177; an empty stack's rendering is not given and has no value, log 16). -/
def Obligations.PromptTextIsHexPairs : Prop :=
  renderPrompt [] = none ∧
  ∀ s : List Byte, s ≠ [] → ∃ text, renderPrompt s = some text ∧ split text = s.map hexPair ∧
    ∀ v ∈ s, (hexPair v).length = 2 ∧ hexLiteral (hexPair v) = some v ∧
      ∀ ch ∈ hexPair v, (0x30 ≤ ch.toNat ∧ ch.toNat ≤ 0x39) ∨ (0x61 ≤ ch.toNat ∧ ch.toNat ≤ 0x66)

/-- The pins: `ch_` transfers carry lines and `out_` transfers carry records without loss, the empty ones as a lone
`ch_eol` and a lone `out_last`; the width of `sp` is ceil(log2(STACK_DEPTH + 1)), `sp` is the depth and fits it; `status`
is the code; the ready pins are high exactly when the core is idle and running; `rd_data` is STACK[rd_idx] when `busy` is
low and has a value exactly when the index is also below `sp`. The dump stream is what is left of the untaken records; it
is offered while `busy` is low; an edge with `out_ready` high transfers its first transfer and takes it off the stream, an
`out_last` taking its record as `ReadOut` would; with `out_ready` high for as many edges as there are transfers the host
has all records, each once. With an unbounded STACK_DEPTH there are no output pins (R178, R174, R176; the pin form is the
spec's decision D15; the framings as functions of the transfer sequence, pins as functions of the state between commands,
`busy` as a line in progress, and the position in the record that is being transferred are the model's choice, log 18). -/
def Obligations.PinsCarryTheTransactions : Prop :=
  (∀ ls : List Line, linesFrom [] (ls.flatMap lineTransfers) = ls) ∧ lineTransfers [] = [.eol] ∧
  (∀ rs : List Record, recordsFrom [] (rs.flatMap recordTransfers) = rs) ∧ recordTransfers (.dump []) = [.last] ∧
  (∀ s : State, s.depth = .unbounded →
    s.pins = none ∧ spWidth s.depth = none ∧ s.outPending = none ∧ (∀ k : Nat, s.rdData k = none) ∧
    ∀ ready : Bool, s.outEdge ready = none) ∧
  (∀ (s : State) (cells : Nat), s.StackFits → s.depth = .finite cells →
    ∃ (p : PinsOut) (w : Nat), s.pins = some p ∧ spWidth s.depth = some w ∧
      cells + 1 ≤ 2 ^ w ∧ 2 ^ w < 2 * (cells + 1) ∧ p.sp = s.stack.length ∧ p.sp < 2 ^ w ∧
      p.status = s.status.code ∧
      (p.chReady = true ↔ s.status = .run ∧ s.line = []) ∧ (p.cmdReady = true ↔ s.status = .run ∧ s.line = []) ∧
      (p.busy = true ↔ s.line ≠ []) ∧ s.outPending = some (if p.busy = true then [] else s.outStream) ∧
      ∀ k : Nat,
        (p.busy = false → s.rdData k = s.stack[k]?) ∧ ((s.rdData k).isSome = true ↔ k < p.sp ∧ p.busy = false)) ∧
  (∀ pending : List OutTransfer,
    ((outPins pending).valid = true ↔ pending ≠ []) ∧ ((outPins pending).last = true ↔ pending.head? = some .last) ∧
    ∀ e, (outPins pending).data = some e ↔ pending.head? = some (.element e)) ∧
  ∀ s : State, s.Inv → s.depth ≠ .unbounded →
    s.untaken = s.out.drop s.taken ∧
    (s.outPos = 0 → s.outStream = s.untaken.flatMap recordTransfers) ∧
    recordsFrom (s.nextElements.take s.outPos) s.outStream = s.untaken ∧
    (∀ ready : Bool, ∃ (o : Option OutTransfer) (t : State),
      s.outEdge ready = some (o, t) ∧ t.Inv ∧ o.toList ++ t.outStream = s.outStream ∧
      (o.isSome = true ↔ ready = true ∧ s.line = [] ∧ s.outStream ≠ []) ∧
      (o = none → t = s) ∧
      (∀ e, o = some (.element e) → t = { s with outPos := s.outPos + 1 }) ∧
      (o = some .last → t = { s with taken := s.taken + 1, outPos := 0,
                                     replies := s.replies ++ [.out (s.untaken.take 1)] })) ∧
    (s.line = [] →
      s.outEdges (List.replicate s.outStream.length true) =
        some (s.outStream, { s with taken := s.out.length, outPos := 0,
                                    replies := s.replies ++ s.untaken.map (fun r => .out [r]) }))

/-- The input pins: at an edge `rst` is a Reset whatever else is offered; otherwise a stopped or busy core transfers
nothing, and an idle running one a character or end of line, or the command word `cmd_data`, as offered. The transfers of
`rst`, `ch_` and `cmd_` merge into the host's submissions in arrival order without loss; characters without a `ch_eol`
submit nothing, a Reset abandons them, and a command word among them has no value. What is submitted is what the core
then takes up, a word by executing it; with an unbounded STACK_DEPTH there is no pin form (R178, R171, R173, R220; D15,
D16, D25; that a Reset abandons the characters and that both ports at one edge have no value is log 20; the level of
transfers is log 18). -/
def Obligations.InputPinsMergeIntoSubmissions : Prop :=
  (∀ (s : State) (p : PinsOut) (i : PinsIn), s.pins = some p →
    (i.rst = true → i.transfers p = some [.rst]) ∧
    (i.rst = false → s.status ≠ .run ∨ s.line ≠ [] → i.transfers p = some []) ∧
    (i.rst = false → s.status = .run → s.line = [] →
      (i.chValid = false → i.cmdValid = false → i.transfers p = some []) ∧
      (i.chValid = true → i.cmdValid = false →
        i.transfers p = some [.ch (if i.chEol = true then .eol else .char i.chData)]) ∧
      (i.chValid = false → i.cmdValid = true → i.transfers p = some [.cmd i.cmdData]) ∧
      (i.chValid = true → i.cmdValid = true → i.transfers p = none))) ∧
  (∀ acts : List HostAction, (∀ a ∈ acts, a.portTransfers ≠ []) →
    submissionsFrom [] (acts.flatMap HostAction.portTransfers) = some acts) ∧
  (∀ a : HostAction, a.portTransfers ≠ [] ↔
    a = .reset ∨ (∃ l, a = .submitLine l) ∨ (∃ cw, a = .submitCommand cw)) ∧
  (∀ ts : List ChTransfer, submissionsFrom [] (ts.map .ch) = some ((linesFrom [] ts).map .submitLine)) ∧
  (∀ (l : Line) (cw : CmdWord) (ts : List PortTransfer),
    submissionsFrom [] (l.map (fun ch => .ch (.char ch)) ++ .rst :: ts) =
      (submissionsFrom [] ts).map (HostAction.reset :: ·) ∧
    (l ≠ [] → submissionsFrom [] (l.map (fun ch => .ch (.char ch)) ++ .cmd cw :: ts) = none)) ∧
  (∀ (s : State) (ts : List PortTransfer), s.depth = .unbounded → s.offerTransfers ts = none) ∧
  (∀ (s : State) (cells : Nat), s.depth = .finite cells →
    (∀ (ts : List PortTransfer) (acts : List HostAction), submissionsFrom [] ts = some acts →
      s.offerTransfers ts = some { s with input := s.input ++ acts }) ∧
    (s.input = [] → ∃ t, s.offerTransfers [.rst] = some t ∧
      step t = .next { State.resetFor s.depth with replies := s.replies }) ∧
    ∀ cw : CmdWord, s.status = .run → s.line = [] → s.input = [] → ∃ t, s.offerTransfers [.cmd cw] = some t ∧
      step t = exec (decode cw) { s with cursor := ⟨s.cursor.line, s.cursor.token, s.cursor.command + 1⟩ })
end

