-- ==== Sys2Proof/Laws/Encoding.lean ====
section
/-! SUPPORT. The fields of a packed command word (R69). -/

namespace Sys2Proof

@[simp] theorem opField_packWord (op : BitVec 4) (imm8 : Byte) : opField (packWord op imm8) = op := by
  apply BitVec.eq_of_getLsbD_eq
  intro k hk
  simp only [opField, packWord, BitVec.getLsbD_extractLsb', BitVec.getLsbD_append]
  simp [hk]

@[simp] theorem immField_packWord (op : BitVec 4) (imm8 : Byte) : immField (packWord op imm8) = imm8 := by
  apply BitVec.eq_of_getLsbD_eq
  intro k hk
  simp only [immField, packWord, BitVec.getLsbD_extractLsb', BitVec.getLsbD_append]
  simp [hk]

end Sys2Proof
end

