-- ==== Sys2Proof/Laws/State.lean ====
section
/-! SUPPORT. One lemma per field per update of State, true by rfl, so that no later proof unfolds a record update. -/

namespace Sys2Proof.Machine

@[simp] theorem State.setStack_stack (s : State) (v : List Byte) : (s.setStack v).stack = v := rfl
@[simp] theorem State.setStack_status (s : State) (v : List Byte) : (s.setStack v).status = s.status := rfl
@[simp] theorem State.setStack_out (s : State) (v : List Byte) : (s.setStack v).out = s.out := rfl
@[simp] theorem State.setStack_depth (s : State) (v : List Byte) : (s.setStack v).depth = s.depth := rfl
@[simp] theorem State.setStack_line (s : State) (v : List Byte) : (s.setStack v).line = s.line := rfl
@[simp] theorem State.setStack_cursor (s : State) (v : List Byte) : (s.setStack v).cursor = s.cursor := rfl
@[simp] theorem State.setStack_input (s : State) (v : List Byte) : (s.setStack v).input = s.input := rfl
@[simp] theorem State.setStack_taken (s : State) (v : List Byte) : (s.setStack v).taken = s.taken := rfl
@[simp] theorem State.setStack_outPos (s : State) (v : List Byte) : (s.setStack v).outPos = s.outPos := rfl
@[simp] theorem State.setStack_replies (s : State) (v : List Byte) : (s.setStack v).replies = s.replies := rfl

@[simp] theorem State.setStatus_stack (s : State) (v : Status) : (s.setStatus v).stack = s.stack := rfl
@[simp] theorem State.setStatus_status (s : State) (v : Status) : (s.setStatus v).status = v := rfl
@[simp] theorem State.setStatus_out (s : State) (v : Status) : (s.setStatus v).out = s.out := rfl
@[simp] theorem State.setStatus_depth (s : State) (v : Status) : (s.setStatus v).depth = s.depth := rfl
@[simp] theorem State.setStatus_line (s : State) (v : Status) : (s.setStatus v).line = s.line := rfl
@[simp] theorem State.setStatus_cursor (s : State) (v : Status) : (s.setStatus v).cursor = s.cursor := rfl
@[simp] theorem State.setStatus_input (s : State) (v : Status) : (s.setStatus v).input = s.input := rfl
@[simp] theorem State.setStatus_taken (s : State) (v : Status) : (s.setStatus v).taken = s.taken := rfl
@[simp] theorem State.setStatus_outPos (s : State) (v : Status) : (s.setStatus v).outPos = s.outPos := rfl
@[simp] theorem State.setStatus_replies (s : State) (v : Status) : (s.setStatus v).replies = s.replies := rfl

@[simp] theorem State.setLine_stack (s : State) (v : List Token) : (s.setLine v).stack = s.stack := rfl
@[simp] theorem State.setLine_status (s : State) (v : List Token) : (s.setLine v).status = s.status := rfl
@[simp] theorem State.setLine_out (s : State) (v : List Token) : (s.setLine v).out = s.out := rfl
@[simp] theorem State.setLine_depth (s : State) (v : List Token) : (s.setLine v).depth = s.depth := rfl
@[simp] theorem State.setLine_line (s : State) (v : List Token) : (s.setLine v).line = v := rfl
@[simp] theorem State.setLine_cursor (s : State) (v : List Token) : (s.setLine v).cursor = s.cursor := rfl
@[simp] theorem State.setLine_input (s : State) (v : List Token) : (s.setLine v).input = s.input := rfl
@[simp] theorem State.setLine_taken (s : State) (v : List Token) : (s.setLine v).taken = s.taken := rfl
@[simp] theorem State.setLine_outPos (s : State) (v : List Token) : (s.setLine v).outPos = s.outPos := rfl
@[simp] theorem State.setLine_replies (s : State) (v : List Token) : (s.setLine v).replies = s.replies := rfl

@[simp] theorem State.setCursor_stack (s : State) (v : Cursor) : (s.setCursor v).stack = s.stack := rfl
@[simp] theorem State.setCursor_status (s : State) (v : Cursor) : (s.setCursor v).status = s.status := rfl
@[simp] theorem State.setCursor_out (s : State) (v : Cursor) : (s.setCursor v).out = s.out := rfl
@[simp] theorem State.setCursor_depth (s : State) (v : Cursor) : (s.setCursor v).depth = s.depth := rfl
@[simp] theorem State.setCursor_line (s : State) (v : Cursor) : (s.setCursor v).line = s.line := rfl
@[simp] theorem State.setCursor_cursor (s : State) (v : Cursor) : (s.setCursor v).cursor = v := rfl
@[simp] theorem State.setCursor_input (s : State) (v : Cursor) : (s.setCursor v).input = s.input := rfl
@[simp] theorem State.setCursor_taken (s : State) (v : Cursor) : (s.setCursor v).taken = s.taken := rfl
@[simp] theorem State.setCursor_outPos (s : State) (v : Cursor) : (s.setCursor v).outPos = s.outPos := rfl
@[simp] theorem State.setCursor_replies (s : State) (v : Cursor) : (s.setCursor v).replies = s.replies := rfl

@[simp] theorem State.setInput_stack (s : State) (v : List HostAction) : (s.setInput v).stack = s.stack := rfl
@[simp] theorem State.setInput_status (s : State) (v : List HostAction) : (s.setInput v).status = s.status := rfl
@[simp] theorem State.setInput_out (s : State) (v : List HostAction) : (s.setInput v).out = s.out := rfl
@[simp] theorem State.setInput_depth (s : State) (v : List HostAction) : (s.setInput v).depth = s.depth := rfl
@[simp] theorem State.setInput_line (s : State) (v : List HostAction) : (s.setInput v).line = s.line := rfl
@[simp] theorem State.setInput_cursor (s : State) (v : List HostAction) : (s.setInput v).cursor = s.cursor := rfl
@[simp] theorem State.setInput_input (s : State) (v : List HostAction) : (s.setInput v).input = v := rfl
@[simp] theorem State.setInput_taken (s : State) (v : List HostAction) : (s.setInput v).taken = s.taken := rfl
@[simp] theorem State.setInput_outPos (s : State) (v : List HostAction) : (s.setInput v).outPos = s.outPos := rfl
@[simp] theorem State.setInput_replies (s : State) (v : List HostAction) : (s.setInput v).replies = s.replies := rfl

@[simp] theorem State.setTaken_stack (s : State) (v : Nat) : (s.setTaken v).stack = s.stack := rfl
@[simp] theorem State.setTaken_status (s : State) (v : Nat) : (s.setTaken v).status = s.status := rfl
@[simp] theorem State.setTaken_out (s : State) (v : Nat) : (s.setTaken v).out = s.out := rfl
@[simp] theorem State.setTaken_depth (s : State) (v : Nat) : (s.setTaken v).depth = s.depth := rfl
@[simp] theorem State.setTaken_line (s : State) (v : Nat) : (s.setTaken v).line = s.line := rfl
@[simp] theorem State.setTaken_cursor (s : State) (v : Nat) : (s.setTaken v).cursor = s.cursor := rfl
@[simp] theorem State.setTaken_input (s : State) (v : Nat) : (s.setTaken v).input = s.input := rfl
@[simp] theorem State.setTaken_taken (s : State) (v : Nat) : (s.setTaken v).taken = v := rfl
@[simp] theorem State.setTaken_outPos (s : State) (v : Nat) : (s.setTaken v).outPos = s.outPos := rfl
@[simp] theorem State.setTaken_replies (s : State) (v : Nat) : (s.setTaken v).replies = s.replies := rfl

@[simp] theorem State.setOutPos_stack (s : State) (v : Nat) : (s.setOutPos v).stack = s.stack := rfl
@[simp] theorem State.setOutPos_status (s : State) (v : Nat) : (s.setOutPos v).status = s.status := rfl
@[simp] theorem State.setOutPos_out (s : State) (v : Nat) : (s.setOutPos v).out = s.out := rfl
@[simp] theorem State.setOutPos_depth (s : State) (v : Nat) : (s.setOutPos v).depth = s.depth := rfl
@[simp] theorem State.setOutPos_line (s : State) (v : Nat) : (s.setOutPos v).line = s.line := rfl
@[simp] theorem State.setOutPos_cursor (s : State) (v : Nat) : (s.setOutPos v).cursor = s.cursor := rfl
@[simp] theorem State.setOutPos_input (s : State) (v : Nat) : (s.setOutPos v).input = s.input := rfl
@[simp] theorem State.setOutPos_taken (s : State) (v : Nat) : (s.setOutPos v).taken = s.taken := rfl
@[simp] theorem State.setOutPos_outPos (s : State) (v : Nat) : (s.setOutPos v).outPos = v := rfl
@[simp] theorem State.setOutPos_replies (s : State) (v : Nat) : (s.setOutPos v).replies = s.replies := rfl

@[simp] theorem State.addReply_stack (s : State) (v : Reply) : (s.addReply v).stack = s.stack := rfl
@[simp] theorem State.addReply_status (s : State) (v : Reply) : (s.addReply v).status = s.status := rfl
@[simp] theorem State.addReply_out (s : State) (v : Reply) : (s.addReply v).out = s.out := rfl
@[simp] theorem State.addReply_depth (s : State) (v : Reply) : (s.addReply v).depth = s.depth := rfl
@[simp] theorem State.addReply_line (s : State) (v : Reply) : (s.addReply v).line = s.line := rfl
@[simp] theorem State.addReply_cursor (s : State) (v : Reply) : (s.addReply v).cursor = s.cursor := rfl
@[simp] theorem State.addReply_input (s : State) (v : Reply) : (s.addReply v).input = s.input := rfl
@[simp] theorem State.addReply_taken (s : State) (v : Reply) : (s.addReply v).taken = s.taken := rfl
@[simp] theorem State.addReply_outPos (s : State) (v : Reply) : (s.addReply v).outPos = s.outPos := rfl
@[simp] theorem State.addReply_replies (s : State) (v : Reply) : (s.addReply v).replies = s.replies ++ [v] := rfl

@[simp] theorem State.handOver_stack (s : State) (v : List Record) (n : Nat) : (s.handOver v n).stack = s.stack := rfl
@[simp] theorem State.handOver_status (s : State) (v : List Record) (n : Nat) : (s.handOver v n).status = s.status := rfl
@[simp] theorem State.handOver_out (s : State) (v : List Record) (n : Nat) : (s.handOver v n).out = s.out := rfl
@[simp] theorem State.handOver_depth (s : State) (v : List Record) (n : Nat) : (s.handOver v n).depth = s.depth := rfl
@[simp] theorem State.handOver_line (s : State) (v : List Record) (n : Nat) : (s.handOver v n).line = s.line := rfl
@[simp] theorem State.handOver_cursor (s : State) (v : List Record) (n : Nat) : (s.handOver v n).cursor = s.cursor := rfl
@[simp] theorem State.handOver_input (s : State) (v : List Record) (n : Nat) : (s.handOver v n).input = s.input := rfl
@[simp] theorem State.handOver_taken (s : State) (v : List Record) (n : Nat) : (s.handOver v n).taken = n := rfl
@[simp] theorem State.handOver_outPos (s : State) (v : List Record) (n : Nat) : (s.handOver v n).outPos = 0 := rfl
@[simp] theorem State.handOver_replies (s : State) (v : List Record) (n : Nat) :
    (s.handOver v n).replies = s.replies ++ [.out v] := rfl

@[simp] theorem State.emit_stack (s : State) (v : Record) : (s.emit v).stack = s.stack := rfl
@[simp] theorem State.emit_status (s : State) (v : Record) : (s.emit v).status = s.status := rfl
@[simp] theorem State.emit_out (s : State) (v : Record) : (s.emit v).out = s.out ++ [v] := rfl
@[simp] theorem State.emit_depth (s : State) (v : Record) : (s.emit v).depth = s.depth := rfl
@[simp] theorem State.emit_line (s : State) (v : Record) : (s.emit v).line = s.line := rfl
@[simp] theorem State.emit_cursor (s : State) (v : Record) : (s.emit v).cursor = s.cursor := rfl
@[simp] theorem State.emit_input (s : State) (v : Record) : (s.emit v).input = s.input := rfl
@[simp] theorem State.emit_taken (s : State) (v : Record) : (s.emit v).taken = s.taken := rfl
@[simp] theorem State.emit_outPos (s : State) (v : Record) : (s.emit v).outPos = s.outPos := rfl
@[simp] theorem State.emit_replies (s : State) (v : Record) : (s.emit v).replies = s.replies := rfl

@[simp] theorem State.raise_stack (s : State) (v : Cause) : (s.raise v).stack = s.stack := rfl
@[simp] theorem State.raise_status (s : State) (v : Cause) : (s.raise v).status = v.status := rfl
@[simp] theorem State.raise_out (s : State) (v : Cause) : (s.raise v).out = s.out := rfl
@[simp] theorem State.raise_depth (s : State) (v : Cause) : (s.raise v).depth = s.depth := rfl
@[simp] theorem State.raise_line (s : State) (v : Cause) : (s.raise v).line = s.line := rfl
@[simp] theorem State.raise_cursor (s : State) (v : Cause) : (s.raise v).cursor = s.cursor := rfl
@[simp] theorem State.raise_input (s : State) (v : Cause) : (s.raise v).input = s.input := rfl
@[simp] theorem State.raise_taken (s : State) (v : Cause) : (s.raise v).taken = s.taken := rfl
@[simp] theorem State.raise_outPos (s : State) (v : Cause) : (s.raise v).outPos = s.outPos := rfl
@[simp] theorem State.raise_replies (s : State) (v : Cause) : (s.raise v).replies = s.replies := rfl

@[simp] theorem State.resetCore_stack (s : State) : s.resetCore.stack = [] := rfl
@[simp] theorem State.resetCore_status (s : State) : s.resetCore.status = .run := rfl
@[simp] theorem State.resetCore_out (s : State) : s.resetCore.out = [] := rfl
@[simp] theorem State.resetCore_depth (s : State) : s.resetCore.depth = s.depth := rfl
@[simp] theorem State.resetCore_line (s : State) : s.resetCore.line = [] := rfl
@[simp] theorem State.resetCore_cursor (s : State) : s.resetCore.cursor = ⟨0, 0, 0⟩ := rfl
@[simp] theorem State.resetCore_input (s : State) : s.resetCore.input = s.input := rfl
@[simp] theorem State.resetCore_taken (s : State) : s.resetCore.taken = 0 := rfl
@[simp] theorem State.resetCore_outPos (s : State) : s.resetCore.outPos = 0 := rfl
@[simp] theorem State.resetCore_replies (s : State) : s.resetCore.replies = s.replies := rfl

@[simp] theorem State.resetFor_stack (d : StackDepth) : (State.resetFor d).stack = [] := rfl
@[simp] theorem State.resetFor_status (d : StackDepth) : (State.resetFor d).status = .run := rfl
@[simp] theorem State.resetFor_out (d : StackDepth) : (State.resetFor d).out = [] := rfl
@[simp] theorem State.resetFor_depth (d : StackDepth) : (State.resetFor d).depth = d := rfl
@[simp] theorem State.resetFor_line (d : StackDepth) : (State.resetFor d).line = [] := rfl
@[simp] theorem State.resetFor_cursor (d : StackDepth) : (State.resetFor d).cursor = ⟨0, 0, 0⟩ := rfl
@[simp] theorem State.resetFor_input (d : StackDepth) : (State.resetFor d).input = [] := rfl
@[simp] theorem State.resetFor_taken (d : StackDepth) : (State.resetFor d).taken = 0 := rfl
@[simp] theorem State.resetFor_outPos (d : StackDepth) : (State.resetFor d).outPos = 0 := rfl
@[simp] theorem State.resetFor_replies (d : StackDepth) : (State.resetFor d).replies = [] := rfl

/-- Writing back what a field holds changes nothing. -/
@[simp] theorem State.setStack_self (s : State) : s.setStack s.stack = s := rfl
@[simp] theorem State.setLine_self (s : State) : s.setLine s.line = s := rfl
@[simp] theorem State.setInput_self (s : State) : s.setInput s.input = s := rfl

/-- The second write of a field wins. -/
@[simp] theorem State.setStack_setStack (s : State) (v w : List Byte) : (s.setStack v).setStack w = s.setStack w := rfl
@[simp] theorem State.setLine_setLine (s : State) (v w : List Token) : (s.setLine v).setLine w = s.setLine w := rfl
@[simp] theorem State.setInput_setInput (s : State) (v w : List HostAction) :
    (s.setInput v).setInput w = s.setInput w := rfl

/-- Two states with equal fields are equal: what a frame lemma has to show. -/
theorem State.ext_fields (s t : State) (h1 : s.stack = t.stack) (h2 : s.status = t.status) (h3 : s.out = t.out)
    (h4 : s.depth = t.depth) (h5 : s.line = t.line) (h6 : s.cursor = t.cursor) (h7 : s.input = t.input)
    (h8 : s.taken = t.taken) (h9 : s.outPos = t.outPos)
    (h10 : s.replies = t.replies) : s = t := by
  cases s; cases t; simp_all

end Sys2Proof.Machine
end

