-- ==== Sys2Proof/Laws/Ops.lean ====
section
/-! SUPPORT. For each shared operation, one lemma that says everything it can do; the meanings' inversion lemma and the
frame that all nine share are derived from these. -/

namespace Sys2Proof.Machine

/-- What `Push` can do: overflow, or grow the stack. -/
theorem State.push_cases (s : State) (v : Byte) :
    (s.isFull = true ∧ s.push v = s.raise .faultStackOvf) ∨
    (s.isFull = false ∧ s.push v = s.setStack (s.stack ++ [v])) := by
  unfold State.push
  cases h : s.isFull <;> simp

theorem State.push_of_not_full {s : State} (h : s.isFull = false) (v : Byte) :
    s.push v = s.setStack (s.stack ++ [v]) := by
  simp [State.push, h]

theorem State.push_of_full {s : State} (h : s.isFull = true) (v : Byte) : s.push v = s.raise .faultStackOvf := by
  simp [State.push, h]

/-- What `PopOr` can do: the default from an empty stack, or the top. -/
theorem State.popOr_cases (s : State) (d : Byte) :
    (s.stack = [] ∧ s.popOr d = (d, s)) ∨
    (∃ low v, s.stack = low ++ [v] ∧ s.popOr d = (v, s.setStack low)) := by
  rcases List.eq_nil_or_concat s.stack with h | ⟨low, v, h⟩
  · exact .inl ⟨h, by simp [State.popOr, h]⟩
  · exact .inr ⟨low, v, by simpa using h, by simp [State.popOr, h]⟩

theorem State.popOr_nil {s : State} (h : s.stack = []) (d : Byte) : s.popOr d = (d, s) := by
  simp [State.popOr, h]

theorem State.popOr_concat {s : State} {low : List Byte} {v : Byte} (h : s.stack = low ++ [v]) (d : Byte) :
    s.popOr d = (v, s.setStack low) := by
  simp [State.popOr, h]

/-- What the two pops of a binary operator can find: nothing, one element, or two or more. -/
theorem State.popTwo_cases (s : State) (d : Byte) :
    (s.stack = [] ∧ s.popTwo d = (d, d, s)) ∨
    (∃ x, s.stack = [x] ∧ s.popTwo d = (x, d, s.setStack [])) ∨
    (∃ low y x, s.stack = low ++ [y, x] ∧ s.popTwo d = (x, y, s.setStack low)) := by
  rcases s.popOr_cases d with ⟨h, hp⟩ | ⟨low, x, h, hp⟩
  · exact .inl ⟨h, by simp [State.popTwo, hp]⟩
  · rcases (s.setStack low).popOr_cases d with ⟨h', hp'⟩ | ⟨low', y, h', hp'⟩
    · refine .inr (.inl ⟨x, ?_, ?_⟩)
      · have : low = [] := by simpa using h'
        simpa [this] using h
      · have : low = [] := by simpa using h'
        subst this
        simp [State.popTwo, hp, hp']
    · refine .inr (.inr ⟨low', y, x, ?_, by simp [State.popTwo, hp, hp']⟩)
      have : low = low' ++ [y] := by simpa using h'
      simp [h, this]

/-- The two pops leave a stack that is a beginning of the old one, and touch nothing else. -/
theorem State.popTwo_state (s : State) (d : Byte) : ∃ low, low <+: s.stack ∧ (s.popTwo d).2.2 = s.setStack low := by
  rcases s.popTwo_cases d with ⟨h, hp⟩ | ⟨x, h, hp⟩ | ⟨low, y, x, h, hp⟩
  · exact ⟨s.stack, List.prefix_rfl, by simp [hp]⟩
  · exact ⟨[], List.nil_prefix, by simp [hp]⟩
  · exact ⟨low, by simp [h], by simp [hp]⟩

/-- `Push` keeps the stack within `STACK_DEPTH`. -/
theorem State.push_fits {s : State} (h : s.StackFits) (v : Byte) : (s.push v).StackFits := by
  rcases s.push_cases v with ⟨_, hp⟩ | ⟨hf, hp⟩
  · simpa [State.StackFits, hp] using h
  · obtain ⟨hw, hd⟩ := h
    refine ⟨by simpa [hp] using hw, ?_⟩
    cases hs : s.depth with
    | unbounded => simp [hp, hs, fitsIn]
    | finite n =>
      simp [State.isFull, isFullAt, hs] at hf
      simp [fitsIn, hs] at hd
      simp [hp, hs, fitsIn]
      omega

/-- A beginning of a stack that fits, fits. -/
theorem State.setStack_fits {s : State} (h : s.StackFits) {low : List Byte} (hl : low.length ≤ s.stack.length) :
    (s.setStack low).StackFits := by
  obtain ⟨hw, hd⟩ := h
  refine ⟨by simpa using hw, ?_⟩
  cases hs : s.depth with
  | unbounded => simp [hs, fitsIn]
  | finite n =>
    simp [fitsIn, hs] at hd
    simp [hs, fitsIn]
    omega

/-- After two pops there is room: why a binary operator cannot overflow (the argument of R44, once). -/
theorem State.not_full_after_pops {s : State} (h : s.StackFits) {low : List Byte}
    (hl : low.length < s.stack.length ∨ low = []) : (s.setStack low).isFull = false := by
  obtain ⟨hw, hd⟩ := h
  cases hs : s.depth with
  | unbounded => simp [State.isFull, isFullAt, hs]
  | finite n =>
    simp [fitsIn, hs] at hd
    simp [StackDepth.wf, hs] at hw
    simp only [State.isFull, State.setStack_depth, State.setStack_stack, isFullAt, hs, beq_eq_false_iff_ne]
    rcases hl with hl | rfl
    · omega
    · simp; omega

theorem State.whileRunning_run {s : State} (h : s.status = .run) (f : State → State) :
    s.whileRunning f = .next (f s) := by
  simp [State.whileRunning, h]

theorem State.whileRunning_stopped {s : State} (h : s.status ≠ .run) (f : State → State) :
    s.whileRunning f = .fault (.stopped s.status) := by
  simp [State.whileRunning, h]

/-- If a guarded effect answers a next state, the core was running and the state is the effect's. -/
theorem State.whileRunning_next {s t : State} {f : State → State} (h : s.whileRunning f = .next t) :
    s.status = .run ∧ t = f s := by
  by_cases hr : s.status = .run
  · rw [State.whileRunning_run hr] at h
    injection h with h
    exact ⟨hr, h.symm⟩
  · rw [State.whileRunning_stopped hr] at h
    cases h

/-- The nine meanings as guarded effects: what a proof about `exec` rewrites with, so that it never unfolds the dispatch. -/
theorem exec_push_eq (v : Byte) (s : State) : exec (.push v) s = s.whileRunning (fun s => s.push v) := rfl
theorem exec_add_eq (s : State) : exec .add s = s.whileRunning State.additive := rfl
theorem exec_xor_eq (s : State) : exec .xor s = s.whileRunning State.additive := rfl
theorem exec_sub_eq (s : State) : exec .sub s = s.whileRunning State.additive := rfl
theorem exec_mul_eq (s : State) : exec .mul s = s.whileRunning State.multiply := rfl
theorem exec_div_eq (s : State) : exec .div s = s.whileRunning State.divide := rfl
theorem exec_dump_eq (s : State) : exec .dump s = s.whileRunning (fun s => s.emit (.dump s.stack)) := rfl
theorem exec_clr_eq (s : State) : exec .clr s = s.whileRunning (fun s => s.setStack []) := rfl
theorem exec_term_eq (s : State) : exec .term s = s.whileRunning (fun s => s.raise .halted) := rfl

/-- What a state looks like after an effect that touches only the stack, the status and the log. -/
structure OnlyArch (s t : State) : Prop where
  depth   : t.depth = s.depth
  line    : t.line = s.line
  cursor  : t.cursor = s.cursor
  input   : t.input = s.input
  taken   : t.taken = s.taken
  outPos  : t.outPos = s.outPos
  replies : t.replies = s.replies

theorem OnlyArch.refl (s : State) : OnlyArch s s := ⟨rfl, rfl, rfl, rfl, rfl, rfl, rfl⟩

theorem OnlyArch.trans {s t u : State} (h : OnlyArch s t) (k : OnlyArch t u) : OnlyArch s u :=
  ⟨k.depth.trans h.depth, k.line.trans h.line, k.cursor.trans h.cursor, k.input.trans h.input,
    k.taken.trans h.taken, k.outPos.trans h.outPos, k.replies.trans h.replies⟩

theorem OnlyArch.setStack (s : State) (v : List Byte) : OnlyArch s (s.setStack v) := ⟨rfl, rfl, rfl, rfl, rfl, rfl, rfl⟩

theorem OnlyArch.raise (s : State) (c : Cause) : OnlyArch s (s.raise c) := ⟨rfl, rfl, rfl, rfl, rfl, rfl, rfl⟩

theorem OnlyArch.emit (s : State) (r : Record) : OnlyArch s (s.emit r) := ⟨rfl, rfl, rfl, rfl, rfl, rfl, rfl⟩

theorem OnlyArch.push (s : State) (v : Byte) : OnlyArch s (s.push v) := by
  rcases s.push_cases v with ⟨_, hp⟩ | ⟨_, hp⟩
  · exact hp ▸ OnlyArch.raise s _
  · exact hp ▸ OnlyArch.setStack s _

theorem OnlyArch.popTwo (s : State) (d : Byte) : OnlyArch s (s.popTwo d).2.2 := by
  obtain ⟨low, _, h⟩ := s.popTwo_state d
  rw [h]
  exact OnlyArch.setStack s low

end Sys2Proof.Machine
end

