-- ==== Sys2Proof/Laws/PerInstr.lean ====
section
/-! SUPPORT. Families of statements about every instruction as syntax, one lemma per constructor (LAWS.json). -/

namespace Sys2Proof.Laws

/-- The row of R70 that stands for the instruction selects its canonical word. -/
def RowSelectsWord.Statement (i : Instr) : Prop := i.row.selects (encode i) = true

theorem RowSelectsWord.push (imm8 : Byte) : RowSelectsWord.Statement (.push imm8) := by
  revert imm8
  unfold RowSelectsWord.Statement
  decide +kernel
theorem RowSelectsWord.add : RowSelectsWord.Statement .add := by unfold RowSelectsWord.Statement; decide
theorem RowSelectsWord.xor : RowSelectsWord.Statement .xor := by unfold RowSelectsWord.Statement; decide
theorem RowSelectsWord.sub : RowSelectsWord.Statement .sub := by unfold RowSelectsWord.Statement; decide
theorem RowSelectsWord.mul : RowSelectsWord.Statement .mul := by unfold RowSelectsWord.Statement; decide
theorem RowSelectsWord.div : RowSelectsWord.Statement .div := by unfold RowSelectsWord.Statement; decide
theorem RowSelectsWord.dump : RowSelectsWord.Statement .dump := by unfold RowSelectsWord.Statement; decide
theorem RowSelectsWord.clr : RowSelectsWord.Statement .clr := by unfold RowSelectsWord.Statement; decide
theorem RowSelectsWord.term : RowSelectsWord.Statement .term := by unfold RowSelectsWord.Statement; decide

/-- Every instruction of the syntax is well formed. -/
def WellFormed.Statement (i : Instr) : Prop := i.wf = true

theorem WellFormed.push (imm8 : Byte) : WellFormed.Statement (.push imm8) := by
  have := imm8.isLt
  simp [WellFormed.Statement, Instr.wf]
  omega
theorem WellFormed.add : WellFormed.Statement .add := rfl
theorem WellFormed.xor : WellFormed.Statement .xor := rfl
theorem WellFormed.sub : WellFormed.Statement .sub := rfl
theorem WellFormed.mul : WellFormed.Statement .mul := rfl
theorem WellFormed.div : WellFormed.Statement .div := rfl
theorem WellFormed.dump : WellFormed.Statement .dump := rfl
theorem WellFormed.clr : WellFormed.Statement .clr := rfl
theorem WellFormed.term : WellFormed.Statement .term := rfl

end Sys2Proof.Laws
end

