-- ==== Sys2Proof/Laws/Pins.lean ====
section
/-! SUPPORT. What one line, one record or one action of the host contributes to a sequence of pin transfers, and what one
edge of the `out_` port can do. -/

namespace Sys2Proof.Machine

/-- The transfers of a line complete exactly that line, after the characters already read, and leave the rest as it is. -/
theorem linesFrom_lineTransfers (cur l : Line) (rest : List ChTransfer) :
    linesFrom cur (lineTransfers l ++ rest) = (cur ++ l) :: linesFrom [] rest := by
  induction l generalizing cur with
  | nil => simp [lineTransfers, linesFrom]
  | cons ch l ih => simpa [lineTransfers, linesFrom] using ih (cur ++ [ch])

/-- The transfers of a record complete exactly that record, after the elements already read, and leave the rest as it is. -/
theorem recordsFrom_recordTransfers (cur s : List Byte) (rest : List OutTransfer) :
    recordsFrom cur (recordTransfers (.dump s) ++ rest) = .dump (cur ++ s) :: recordsFrom [] rest := by
  induction s generalizing cur with
  | nil => simp [recordTransfers, recordsFrom]
  | cons e s ih => simpa [recordTransfers, recordsFrom] using ih (cur ++ [e])

/-- Characters without an end of line only lengthen the line in progress. -/
theorem submissionsFrom_chars (cur l : Line) (rest : List PortTransfer) :
    submissionsFrom cur (l.map (fun ch => .ch (.char ch)) ++ rest) = submissionsFrom (cur ++ l) rest := by
  induction l generalizing cur with
  | nil => simp
  | cons ch l ih => simpa [submissionsFrom] using ih (cur ++ [ch])

/-- The transfers of an action that has any make exactly that action, and leave the rest as it is. -/
theorem submissionsFrom_portTransfers (a : HostAction) (rest : List PortTransfer) (h : a.portTransfers ≠ []) :
    submissionsFrom [] (a.portTransfers ++ rest) = (submissionsFrom [] rest).map (a :: ·) := by
  cases a with
  | submitLine l =>
    simpa [HostAction.portTransfers, lineTransfers, submissionsFrom, Function.comp_def] using
      submissionsFrom_chars [] l (.ch .eol :: rest)
  | reset => rfl
  | submitCommand cw => rfl
  | readStatus => exact absurd rfl h
  | readStack => exact absurd rfl h
  | readOut => exact absurd rfl h
  | pause => exact absurd rfl h

/-- What one edge of the `out_` port can do: there is no port, or nothing transfers, or the first transfer of the stream
does. -/
theorem State.outEdge_cases (s : State) (ready : Bool) :
    (s.depth = .unbounded ∧ s.outEdge ready = none) ∨
    (s.depth ≠ .unbounded ∧ (ready = false ∨ s.busy = true ∨ s.outStream = []) ∧ s.outEdge ready = some (none, s)) ∨
    (∃ t rest, s.depth ≠ .unbounded ∧ ready = true ∧ s.busy = false ∧ s.outStream = t :: rest ∧
      s.outEdge ready = some (some t, s.afterOut t)) := by
  cases hd : s.depth with
  | unbounded => exact .inl ⟨rfl, by simp [State.outEdge, State.outPending, hd]⟩
  | finite cells =>
    refine .inr ?_
    cases hr : ready with
    | false => exact .inl ⟨by simp, .inl rfl, by simp [State.outEdge, State.outPending, hd, outTransfer]⟩
    | true =>
      cases hb : s.busy with
      | true => exact .inl ⟨by simp, .inr (.inl rfl), by simp [State.outEdge, State.outPending, hd, hb, outTransfer, outPins]⟩
      | false =>
        cases hs : s.outStream with
        | nil => exact .inl ⟨by simp, .inr (.inr rfl), by
            simp [State.outEdge, State.outPending, hd, hb, hs, outTransfer, outPins]⟩
        | cons t rest => exact .inr ⟨t, rest, by simp, rfl, rfl, rfl, by
            cases t <;> simp [State.outEdge, State.outPending, hd, hb, hs, outTransfer, outPins]⟩

/-- What the stream is while the position is inside the next record: nothing when all is taken; otherwise what is left of
that record, its `out_last`, and the records after it. -/
theorem State.outStream_cases (s : State) (h : s.outPos ≤ s.nextElements.length) :
    (s.untaken = [] ∧ s.outPos = 0 ∧ s.outStream = []) ∨
    (∃ es rest, s.untaken = .dump es :: rest ∧ s.outPos ≤ es.length ∧
      s.outStream = (es.drop s.outPos).map OutTransfer.element ++ .last :: rest.flatMap recordTransfers) := by
  cases hu : s.untaken with
  | nil => exact .inl ⟨rfl, by simpa [State.nextElements, hu] using h, by simp [State.outStream, hu]⟩
  | cons r rest =>
    obtain ⟨es⟩ := r
    have hp : s.outPos ≤ es.length := by simpa [State.nextElements, hu, Record.elements] using h
    exact .inr ⟨es, rest, rfl, hp, by
      simp [State.outStream, hu, recordTransfers, List.drop_append, Nat.sub_eq_zero_of_le hp]⟩

end Sys2Proof.Machine
end

