-- ==== Sys2Proof/Laws/Session.lean ====
section
/-! SUPPORT. What the shared operations around an instruction can do: settling, going on with a line, accepting a
submission, splitting a line. -/

namespace Sys2Proof.Machine

/-- If settling answers a next state, the instruction did, and only the rest of the line may have been dropped. -/
theorem settle_next {r : Result} {t : State} (h : settle r = .next t) :
    ∃ u, r = .next u ∧ t = u.dropLineIfStopped := by
  cases r with
  | next u => injection h with h; exact ⟨u, rfl, h.symm⟩
  | fault _ => cases h
  | refused _ => cases h

theorem State.dropLineIfStopped_cases (s : State) :
    (s.status = .run ∧ s.dropLineIfStopped = s) ∨ (s.status ≠ .run ∧ s.dropLineIfStopped = s.setLine []) := by
  by_cases h : s.status = .run
  · exact .inl ⟨h, by simp [State.dropLineIfStopped, h]⟩
  · exact .inr ⟨h, by simp [State.dropLineIfStopped, h]⟩

/-- Dropping the line touches nothing else. -/
theorem State.dropLineIfStopped_arch (s : State) : s.dropLineIfStopped.arch = s.arch := by
  rcases s.dropLineIfStopped_cases with ⟨_, h⟩ | ⟨_, h⟩ <;> simp [h, State.arch]

theorem State.workOr_busy {s : State} {t : Token} {rest : List Token} (h : s.line = t :: rest) (r : Result) :
    s.workOr r = runToken t rest s := by
  simp [State.workOr, h]

theorem State.workOr_idle {s : State} (h : s.line = []) (r : Result) : s.workOr r = r := by
  simp [State.workOr, h]

theorem State.acceptIfRunning_run {s : State} (h : s.status = .run) (r : Result) : s.acceptIfRunning r = r := by
  simp [State.acceptIfRunning, h]

theorem State.acceptIfRunning_stopped {s : State} (h : s.status ≠ .run) (r : Result) :
    s.acceptIfRunning r = .next s := by
  simp [State.acceptIfRunning, h]

/-- `core` runs `step`. -/
theorem core_step (s : State) : Host.Core.step Sys2Proof.core s = step s := rfl

/-- One step of a run, for any machine behind the host's interface. -/
theorem run_of_step {M : Host.Core} {s t : M.State} (h : M.step s = .next t) (n : Nat) :
    M.run (n + 1) s = M.run n t := by
  simp only [Host.Core.run, h]

/-- Two stretches of a run, one after the other. -/
theorem run_append {M : Host.Core} {s t : M.State} (n m : Nat) (h : M.run n s = .next t) :
    M.run (n + m) s = M.run m t := by
  induction n generalizing s with
  | zero =>
    simp only [Host.Core.run, Host.Outcome.next.injEq] at h
    simp [h]
  | succ n ih =>
    rw [show n + 1 + m = (n + m) + 1 by omega]
    simp only [Host.Core.run] at h ⊢
    cases hs : M.step s with
    | next u => rw [hs] at h; exact ih h
    | fault r => rw [hs] at h; cases h
    | refused r => rw [hs] at h; cases h

/-- A line has at least one token. -/
theorem splitFrom_ne_nil (cur : Token) (l : Line) : splitFrom cur l ≠ [] := by
  induction l generalizing cur with
  | nil => simp [splitFrom]
  | cons ch rest ih =>
    simp only [splitFrom]
    split
    · simp
    · exact ih _

theorem split_ne_nil (l : Line) : split l ≠ [] := splitFrom_ne_nil [] l

end Sys2Proof.Machine
end

