-- ==== Sys2Proof/Tests/Slice0.lean ====
section
/-! SUPPORT. Tests: the expected values are the spec's own (95_test_vectors.md, the tables of 30_encoding.md and the
examples of the instruction rules), and the words are written out from the encoding of R69 and R70. Then, for each
statement with hypotheses, a witness: a concrete state and operands that meet them. -/

namespace Sys2Proof.Tests

open Sys2Proof Sys2Proof.Machine

/-- A running core with the given stack and depth. -/
def withStack (d : StackDepth) (stack : List Byte) : State := (State.resetFor d).setStack stack

/-- An unbounded running core with the given stack. -/
def st (stack : List Byte) : State := withStack .unbounded stack

/-- What the host has submitted. -/
def offered (acts : List HostAction) : State := State.reset.setInput acts

/-- The state of an answer, if it is a next state. -/
def nextOf : Host.Outcome State Fault Refusal → Option State
  | .next s => some s
  | .fault _ => none
  | .refused _ => none

/-- Stack and status code after one instruction. -/
def after (i : Instr) (s : State) : Option (List Byte × BitVec 3) :=
  (nextOf (exec i s)).map (fun t => (t.stack, t.status.code))

/-- The architectural state after one step. -/
def stepArch (s : State) : Option (List Byte × Status × List Record) := (nextOf (step s)).map State.arch

/-- A token from its characters. -/
def tok (cs : List Char) : Token := cs.map (fun c => BitVec.ofNat 8 c.toNat)

/-! ## WellFormed smoke: each check refuses an ill-formed term -/

theorem test_wf_instr : (Instr.push 0xFF#8).wf = true ∧ Instr.term.wf = true := by decide
theorem test_wf_refuses_wide_word : commandWordWf 4095 = true ∧ commandWordWf 4096 = false := by decide
theorem test_wf_refuses_token_with_space : tokenWf (tok ['3', '5']) = true ∧ tokenWf (tok ['3', ' ', '5']) = false := by decide
theorem test_wf_refuses_line_with_terminator :
    lineWf (tok ['3', ' ', '5']) = true ∧ lineWf (tok ['3', '\n']) = false ∧ lineWf (tok ['3', '\r']) = false := by decide
theorem test_wf_refuses_zero_depth :
    (StackDepth.finite 1).wf = true ∧ StackDepth.unbounded.wf = true ∧ (StackDepth.finite 0).wf = false := by decide
theorem test_inv_refuses_overfull_stack : ¬ (withStack (.finite 1) [0x01#8, 0x02#8]).Inv := by decide
theorem test_inv_refuses_line_after_halt : ¬ (((st []).setLine [tok ['5']]).raise .halted).Inv := by decide

/-! ## Decoding: words written out from R69 and R70 -/

theorem test_decode_push : decode 0b0000_10101010#12 = .push 0xAA#8 := by decide
theorem test_decode_add : decode 0b0001_00000000#12 = .add ∧ decode 0b0001_11111111#12 = .add := by decide
theorem test_decode_xor : decode 0b0010_10100101#12 = .xor := by decide
theorem test_decode_sub : decode 0b0011_00000000#12 = .sub := by decide
theorem test_decode_mul : decode 0b0100_00000000#12 = .mul := by decide
theorem test_decode_div : decode 0b0101_00000000#12 = .div := by decide
theorem test_decode_dump : decode 0b0110_00000000#12 = .dump := by decide
theorem test_decode_clr : decode 0b0111_11111111#12 = .clr := by decide
theorem test_decode_term :
    decode 0b1111_00000000#12 = .term ∧ decode 0b1000_00000000#12 = .term ∧ decode 0b1110_00000001#12 = .term := by decide
theorem test_encode_push : encode (.push 0x0F#8) = 0b0000_00001111#12 := by decide
theorem test_encode_term : encode .term = 0xF00#12 := by decide
theorem test_decodeTableWord :
    decodeTableWord 16 0x0FF = some (.push 0xFF#8) ∧ decodeTableWord 16 0x500 = some .div ∧
    decodeTableWord 16 0x800 = some .term ∧ decodeTableWord 16 0x1000 = none := by decide
theorem test_decodeNat_rejects_by_name : (match decodeNat 0x1000 with
    | .error .widerThanCommandWord => true
    | .ok _ => false) = true := by decide

/-! ## Splitting and classification (95_test_vectors.md 2.3) -/

theorem test_split :
    split (tok ['3', ' ', '5']) = [tok ['3'], tok ['5']] ∧
    split (tok ['3', ' ', ' ', '5']) = [tok ['3'], [], tok ['5']] ∧ split [] = [[]] ∧
    split (tok ['3', ' ']) = [tok ['3'], []] ∧ split (tok [' ', '3']) = [[], tok ['3']] ∧
    split (tok ['3', '\t', '5']) = [tok ['3', '\t', '5']] := by decide

theorem test_classify_operators :
    ([(['+'], 0x100#12), (['^'], 0x200#12), (['-'], 0x300#12), (['*'], 0x400#12), (['/'], 0x500#12),
      (['_', 'd'], 0x600#12), (['_', 'c'], 0x700#12)] : List (List Char × CmdWord)).all
      (fun p => classify (tok p.1) == p.2) = true := by decide

theorem test_classify_literals :
    ([(['0'], 0x000#12), (['2', '5', '5'], 0x0FF#12), (['0', '2', '5', '5'], 0x0FF#12), (['0', '0', '7'], 0x007#12),
      (['1', '0'], 0x00A#12), (['0', 'x', '1', '0'], 0x010#12), (['9', '9'], 0x063#12), (['1', '7', '0'], 0x0AA#12),
      (['0', 'x', 'a', 'a'], 0x0AA#12), (['a', 'a'], 0x0AA#12), (['F', 'F'], 0x0FF#12), (['0', 'x', 'F', 'f'], 0x0FF#12),
      (['0', 'x', '0', 'f', 'f'], 0x0FF#12), (['1', 'e'], 0x01E#12), (['0', 'b', '1'], 0x0B1#12),
      (['d'], 0x00D#12)] : List (List Char × CmdWord)).all
      (fun p => classify (tok p.1) == p.2 && literalStream (tok p.1) == literal (tok p.1)) = true := by decide

theorem test_classify_terminating :
    ([['2', '5', '6'], ['0', 'x', '1', '0', '0'], ['0', 'X', '1', '0'], ['0', 'x'], ['x'], ['0', 'x', '0', 'x', '1'],
      ['0', '0', 'x', '1'], ['0', 'x', '1', 'g'], ['g'], ['+', '5'], ['-', '5'], ['+', '+'], ['1', '.', '0'], ['_'],
      ['_', 'D'], ['_', '_', 'd'], ['_', 'd', 'd'], ['<', '<'], ['q'], []] : List (List Char)).all
      (fun t => classify (tok t) == 0xF00#12 && literalStream (tok t) == none) = true := by decide

/-! ## The field unit (95_test_vectors.md 2.1, 2.2) -/

theorem test_xtime :
    xtime 0x01#8 = 0x02#8 ∧ xtime 0x7F#8 = 0xFE#8 ∧ xtime 0x80#8 = 0x1B#8 ∧ xtime 0x81#8 = 0x19#8 := by decide
theorem test_gfMul_products :
    ([(0x03, 0x05, 0x0F), (0x02, 0x80, 0x1B), (0x57, 0x83, 0xC1), (0x57, 0x13, 0xFE), (0xFF, 0xFF, 0x13),
      (0x80, 0x80, 0x9A), (0xAC, 0x03, 0xEF), (0x53, 0xCA, 0x01)] : List (Byte × Byte × Byte)).all
      (fun p => gfMul p.1 p.2.1 == p.2.2 && polyRemainder (carrylessProduct p.1 p.2.1) == p.2.2) = true := by decide +kernel
theorem test_invert :
    invert 0x01#8 = some 0x01#8 ∧ invert 0x05#8 = some 0x52#8 ∧ invert 0xF6#8 = some 0x03#8 ∧ invert 0x00#8 = none := by
  decide +kernel
theorem test_gfDiv : gfDiv 0x06#8 0x03#8 = some 0x02#8 ∧ gfDiv 0xFF#8 0xFF#8 = some 0x01#8 ∧ gfDiv 0x00#8 0x00#8 = none := by
  decide +kernel

/-! ## The instructions (95_test_vectors.md 2.4 to 2.8) -/

theorem test_push_decimal_170 : after (.push 0xAA#8) (st [0x03#8]) = some ([0x03#8, 0xAA#8], 0#3) := by decide
theorem test_push_overflow :
    after (.push 0x03#8) (withStack (.finite 2) [0x01#8, 0x02#8]) = some ([0x01#8, 0x02#8], 3#3) := by decide
theorem test_add_no_carry : after .add (st [0x01#8, 0xFF#8]) = some ([0xFE#8], 0#3) := by decide
theorem test_add_empty : after .add (withStack (.finite 1) []) = some ([0x00#8], 0#3) := by decide
theorem test_xor_top_two : after .xor (st [0x09#8, 0x57#8, 0x83#8]) = some ([0x09#8, 0xD4#8], 0#3) := by decide
theorem test_sub_no_borrow : after .sub (st [0x01#8, 0x02#8]) = some ([0x03#8], 0#3) := by decide
theorem test_sub_one_operand : after .sub (st [0x07#8]) = some ([0x07#8], 0#3) := by decide
theorem test_mul_three_five : after .mul (st [0x03#8, 0x05#8]) = some ([0x0F#8], 0#3) := by decide
theorem test_mul_empty : after .mul (st []) = some ([0x01#8], 0#3) := by decide
theorem test_div_order : after .div (st [0x09#8, 0x06#8, 0x03#8]) = some ([0x09#8, 0x02#8], 0#3) := by decide +kernel
theorem test_div_zero : after .div (st [0x05#8, 0x00#8]) = some ([0x05#8, 0x00#8], 2#3) ∧ after .div (st []) = some ([], 2#3) := by
  decide
theorem test_dump_records : (nextOf (exec .dump (st [0x01#8, 0x02#8, 0x03#8]))).map State.arch =
    some ([0x01#8, 0x02#8, 0x03#8], .run, [.dump [0x01#8, 0x02#8, 0x03#8]]) := by decide
theorem test_dump_empty : (nextOf (exec .dump (st []))).map (fun s => s.out) = some [.dump []] := by decide
theorem test_clr : after .clr (st [0x01#8, 0x02#8, 0x03#8]) = some ([], 0#3) := by decide
theorem test_clr_keeps_log :
    (nextOf (exec .clr ((st [0x01#8]).emit (.dump [])))).map (fun s => s.out) = some [.dump []] := by decide
theorem test_term : after .term (st [0x07#8]) = some ([0x07#8], 1#3) := by decide
theorem test_stopped_core_has_no_step : nextOf (exec (.push 0x01#8) ((st []).raise .halted)) = none := by decide

/-! ## Steps and the host (95_test_vectors.md 2.9) -/

theorem test_step_runs_fetched_word :
    stepArch (State.reset.withFetchWord 16 0x0AA) = some ([0xAA#8], .run, []) ∧
    stepArch (State.reset.withFetchWord 16 0xF00) = some ([], .halted, []) := by decide
theorem test_step_line_first_token : stepArch (offered [.submitLine (tok ['3', ' ', 'q', ' ', '5'])]) =
    some ([0x03#8], .run, []) := by decide
theorem test_step_term_drops_the_line :
    (nextOf (step ((st [0x03#8]).setLine [tok ['q'], tok ['5']]))).map (fun s => (s.stack, s.status, s.line)) =
      some ([0x03#8], .halted, []) := by decide
theorem test_empty_line_halts : stepArch (offered [.submitLine []]) = some ([], .halted, []) := by decide
theorem test_stopped_core_drops_a_line :
    stepArch (((st [0x05#8, 0x00#8]).raise .faultDiv0).setInput [.submitLine (tok ['1'])]) =
      some ([0x05#8, 0x00#8], .faultDiv0, []) := by decide
theorem test_reset_after_fault :
    stepArch (((st [0x05#8, 0x00#8]).raise .faultDiv0).setInput [.reset]) = some ([], .run, []) := by decide
theorem test_read_stack_reply :
    (nextOf (step ((st [0x03#8, 0x05#8]).setInput [.readStack]))).map (fun s => s.replies) =
      some [.stack [0x03#8, 0x05#8]] := by decide
theorem test_read_out_takes_once :
    (nextOf (step (((st []).emit (.dump [])).setInput [.readOut]))).map (fun s => (s.replies, s.taken)) =
      some ([.out [.dump []]], 1) := by decide
theorem test_stopped_core_without_host_action : nextOf (step ((st []).raise .halted)) = none := by decide

/-! ## Renderings (95_test_vectors.md 2.7, 2.9) -/

theorem test_render_dump : renderDec (.dump [0xFF#8, 0x00#8, 0x10#8]) =
    tok ['D', 'E', 'C', ':', ' ', '2', '5', '5', ' ', '0', ' ', '1', '6'] := by decide
theorem test_render_prompt : renderPrompt [0x0A#8, 0x10#8, 0xFF#8] =
    some (tok ['0', 'a', ' ', '1', '0', ' ', 'f', 'f']) := by decide
theorem test_pins :
    (withStack (.finite 3) [0x01#8]).pins = some ⟨0#3, false, 1, true, true⟩ ∧
    ((withStack (.finite 3) [0x01#8]).raise .halted).pins = some ⟨1#3, false, 1, false, false⟩ ∧ (st []).pins = none := by decide

theorem test_out_transfers :
    recordTransfers (.dump [0x01#8, 0x02#8]) = [.element 0x01#8, .element 0x02#8, .last] ∧
    recordTransfers (.dump []) = [.last] := by decide
theorem test_rd_data :
    (withStack (.finite 3) [0x07#8, 0x09#8]).rdData 0 = some 0x07#8 ∧
    (withStack (.finite 3) [0x07#8, 0x09#8]).rdData 2 = none ∧ (st [0x07#8]).rdData 0 = none := by decide
theorem test_submissions_merge_in_arrival_order :
    submissionsFrom [] [.cmd 0x003#12, .ch (.char 0x35#8), .ch .eol, .ch .eol, .cmd 0x100#12] =
      some [.submitCommand 0x003#12, .submitLine (tok ['5']), .submitLine [], .submitCommand 0x100#12] ∧
    submissionsFrom [] [.ch (.char 0x35#8), .cmd 0x100#12] = none := by decide
theorem test_rst_wins_over_cmd :
    (withStack (.finite 3) []).pins.map (fun p => (⟨true, false, 0x00#8, false, true, 0x100#12⟩ : PinsIn).transfers p) =
      some (some [.rst]) := by decide

/-! ## Witnesses: the hypotheses of the statements can be met -/

/-- A core that is full, one with room for one, and an unbounded one. -/
def full1 : State := withStack (.finite 1) [0x07#8]
def full2 : State := withStack (.finite 2) [0x09#8, 0x03#8]
def stopped : State := (st [0x07#8]).raise .halted

theorem witness_EveryWordHasExactlyOneRow :
    (∃ v, decode 0x0FF#12 = .push v) ∧ (¬ ∃ v, decode 0x100#12 = .push v) ∧ (Instr.term).row.selects 0xFFF#12 = true :=
  ⟨⟨0xFF#8, by decide⟩, (fun h => by
    obtain ⟨v, h⟩ := h
    rw [show decode 0x100#12 = .add by decide] at h
    cases h), by decide⟩

theorem witness_InstructionsRoundTripThroughWordAndText :
    (Instr.push 0xFF#8).wf = true ∧ canonicalToken (.push 0xFF#8) = some (tok ['2', '5', '5']) ∧
    canonicalToken .clr = some (tok ['_', 'c']) ∧ canonicalToken .term = none := by decide

theorem witness_OperatorAndDirectiveTokens :
    operatorToken (tok ['/']) = some .div ∧ directiveToken (tok ['_', 'd']) = some .dump := by decide

theorem witness_DumpAppendsOneRecord :
    (st []).status = .run ∧ (nextOf (exec .dump (st []))).isSome = true := by decide

theorem witness_ClrEmptiesTheStack :
    full2.status = .run ∧ (nextOf (exec .clr full2)).isSome = true ∧ full2.StackFits ∧
    (nextOf (exec .clr full2)).any (fun t => decide (t.stack.length + 1 < full2.stack.length)) = true := by decide

theorem witness_TokenClassesAreDisjoint :
    (operatorToken (tok ['-'])).isSome = true ∧ (directiveToken (tok ['_', 'c'])).isSome = true ∧
    chLF ∈ tok ['5', '\n'] ∧ chLF ∉ [0x2B#8, 0x5E#8, 0x2D#8, 0x2A#8, 0x2F#8, 0x5F#8, 0x78#8] ∧ hexDigit chLF = none := by decide

theorem witness_DecimalLiteralSyntax :
    decLiteral (tok ['2', '5', '5']) = some 0xFF#8 ∧ tok ['2', '5', '5'] ≠ [] := by decide

theorem witness_HexadecimalLiteralSyntax :
    hexLiteral (tok ['0', 'x', 'f', 'F']) = some 0xFF#8 ∧ ¬ [0x30#8, 0x78#8] <+: tok ['0', 'X', '1'] := by decide

theorem witness_LiteralIsDecimalThenHexadecimal :
    (∀ ch ∈ tok ['2', '5', '6'], 0x30 ≤ ch.toNat ∧ ch.toNat ≤ 0x39) ∧
    255 < Nat.ofDigits 10 ((tok ['2', '5', '6']).map (fun ch => ch.toNat - 0x30)).reverse := by decide

theorem witness_XtimeShiftsAndReduces : (0x7F#8).getLsbD 7 = false ∧ (0x80#8).getLsbD 7 = true := by decide

theorem witness_nonzero_bytes : (0x01#8 : Byte) ≠ 0x00#8 ∧ (0xFF#8 : Byte) ≠ 0x00#8 := by decide

theorem witness_PushPrimitive :
    full1.depth = .finite full1.stack.length ∧ (st []).depth ≠ .finite (st []).stack.length ∧
    (withStack (.finite 2) [0x07#8]).depth ≠ .finite (withStack (.finite 2) [0x07#8]).stack.length := by decide

theorem witness_PopOrPrimitive :
    full2.stack = [0x09#8] ++ [0x03#8] ∧ (st []).stack = [] ∧ full1.stack = [0x07#8] ∧ full2.stack = [] ++ [0x09#8, 0x03#8] := by
  decide

theorem witness_AddXorSubResults :
    (st []).status = .run ∧ (st []).StackFits ∧ (st []).stack = [] ∧
    full1.status = .run ∧ full1.StackFits ∧ full1.stack = [0x07#8] ∧
    full2.status = .run ∧ full2.StackFits ∧ full2.stack = [] ++ [0x09#8, 0x03#8] := by decide

theorem witness_MulResults :
    (withStack (.finite 1) []).StackFits ∧ full1.StackFits ∧ full1.status = .run ∧ full2.StackFits ∧
    (withStack (.finite 2) [0x00#8, 0xFF#8]).stack = [] ++ [0x00#8, 0xFF#8] ∧
    (withStack (.finite 2) [0x00#8, 0xFF#8]).StackFits := by decide

theorem witness_DivResults :
    full1.StackFits ∧ full1.stack = [0x07#8] ∧ full2.StackFits ∧ full2.stack = [] ++ [0x09#8, 0x03#8] ∧
    (withStack (.finite 2) [0x01#8, 0x01#8]).StackFits ∧ (withStack (.finite 2) [0x00#8, 0xFF#8]).StackFits := by decide

theorem witness_DivisionByZeroFaults :
    (st []).status = .run ∧ (st []).stack = [] ∧ (st [0x05#8, 0x00#8]).status = .run ∧
    ∃ low, (st [0x05#8, 0x00#8]).stack = low ++ [0x00#8] := ⟨rfl, rfl, rfl, [0x05#8], rfl⟩

theorem witness_PushResults :
    literal (tok ['2', '5', '5']) = some 0xFF#8 ∧ full1.status = .run ∧ full1.depth = .finite full1.stack.length ∧
    (withStack (.finite 2) [0x07#8]).depth ≠ .finite (withStack (.finite 2) [0x07#8]).stack.length := by decide

theorem witness_running_core : (st []).status = .run ∧ full2.status = .run := by decide

theorem witness_TermHalts :
    8 ≤ (0x8#4 : BitVec 4).toNat ∧ 8 ≤ (0xF#4 : BitVec 4).toNat ∧ operatorToken [] = none ∧ directiveToken [] = none ∧
    literal [] = none := by decide

theorem witness_BinaryOperatorsNeverOverflow :
    full2.StackFits ∧ Instr.mul ∈ [Instr.add, .xor, .sub, .mul, .div] ∧ (nextOf (exec .mul full2)).isSome = true := by decide

theorem witness_StatusLeavesRunExactlyThen : full1.status = .run ∧ full1.StackFits ∧ (st []).StackFits := by decide

theorem witness_UnderflowIsNoEvent :
    full1.status = .run ∧ full1.StackFits ∧ full1.stack.length < 2 ∧ (st []).StackFits ∧ (st []).stack.length < 2 ∧
    Instr.div ∈ [Instr.add, .xor, .sub, .mul, .div] := by decide

theorem witness_EventsArePrecise :
    full1.StackFits ∧ (nextOf (exec (.push 0x01#8) full1)).any (fun t => t.status != .run) = true ∧
    (st []).StackFits ∧ (nextOf (exec .div (st []))).any (fun t => t.status != .run) = true := by decide

theorem witness_StoppedCoreExecutesNothing : stopped.status ≠ .run := by decide

theorem witness_InstructionFrame :
    full2.StackFits ∧ (nextOf (exec .xor full2)).isSome = true ∧ (nextOf (exec .dump full2)).isSome = true ∧
    (nextOf (exec .term full2)).isSome = true ∧ Instr.clr ≠ .dump := by decide

theorem witness_StackIsWrittenAtTheTopOnly :
    Instr.add ≠ .clr ∧ full2.StackFits ∧ (nextOf (exec .add full2)).any (fun t => t.status == .run) = true ∧
    (st []).StackFits ∧ (nextOf (exec .div (st []))).any (fun t => t.status != .run) = true ∧
    (nextOf (exec (.push 0x01#8) (st []))).isSome = true ∧ (st []).depth ≠ .finite (st []).stack.length ∧
    (nextOf (exec (.push 0x01#8) full1)).isSome = true ∧ full1.depth = .finite full1.stack.length ∧
    (nextOf (exec .term full1)).isSome = true := by decide

theorem witness_OnlyTheTopTwoAreRead :
    full2.status = .run ∧ Instr.div ≠ .dump ∧ Instr.div ≠ .clr ∧
    full2.depth = .finite 2 ∧ State.StackFits { full2 with stack := [] ++ [0x09#8, 0x03#8] } ∧
    ([] : List Byte).length = 0 ∧
    (st []).depth = .unbounded ∧ State.StackFits { st [] with stack := [0x01#8] ++ [0x09#8, 0x03#8] } := by decide

theorem witness_StepRunsTheSubmittedWord :
    (offered [.submitCommand 0x0AA#12]).status = .run ∧ (offered [.submitCommand 0x0AA#12]).line = [] ∧
    (offered [.submitCommand 0x0AA#12]).input = .submitCommand 0x0AA#12 :: [] := by decide

/-- A core in the middle of a line, and the same core while the host lets time pass. -/
def busyCore : State := (st []).setLine [tok ['5'], tok ['q']]

theorem witness_StepRunsTheNextToken :
    busyCore.line = tok ['5'] :: [tok ['q']] ∧ busyCore.input.head? ≠ some .reset ∧ busyCore.input.head? ≠ some .readStatus ∧
    (nextOf (exec (decode (classify (tok ['5']))) busyCore)).isSome = true ∧
    (busyCore.setInput [.pause]).input.head? = some .pause := by decide

theorem witness_SubmittedLineStartsAtOnce :
    (offered [.submitLine []]).status = .run ∧ (offered [.submitLine []]).line = [] ∧
    (offered [.submitLine []]).input = .submitLine [] :: [] := by decide

theorem witness_StoppedCoreAcceptsNothing :
    stopped.status ≠ .run ∧ stopped.line = [] ∧
    (stopped.setInput [.submitLine []]).input = .submitLine [] :: [] ∧
    (stopped.setInput [.submitCommand 0x001#12]).input = .submitCommand 0x001#12 :: [] := by decide

theorem witness_OnlyResetLeavesAStop :
    (stopped.setInput [.readStack]).status ≠ .run ∧ (nextOf (step (stopped.setInput [.readStack]))).isSome = true ∧
    (stopped.setInput [.readStack]).input.head? ≠ some .reset := by decide

theorem witness_ResetRestoresTheResetState : (busyCore.setInput [.reset]).input = .reset :: [] := by decide

theorem witness_HostReadsChangeNothing :
    (busyCore.setInput [.readStatus]).input = .readStatus :: [] ∧
    (stopped.setInput [.readStack]).input = .readStack :: [] ∧ (stopped.setInput [.readStack]).line = [] ∧
    (stopped.setInput [.readOut]).input = .readOut :: [] ∧ (stopped.setInput [.readOut]).line = [] := by decide

theorem witness_OutputLogIsAppendOnly :
    (nextOf (step (offered [.submitCommand 0x600#12]))).map (fun t => t.out) = some [.dump []] ∧
    (offered [.submitCommand 0x600#12]).input.head? ≠ some .reset := by decide

theorem witness_steps_of_a_busy_core :
    busyCore.Inv ∧ (nextOf (step busyCore)).isSome = true ∧ busyCore.input.head? ≠ some .reset := by decide

theorem witness_StepStopsOnlyWhenTheRunIsOver :
    State.reset.status = .run ∧ State.reset.line = [] ∧ State.reset.input = [] ∧ stopped.Inv ∧ stopped.status ≠ .run ∧ stopped.input = [] ∧
    (nextOf (step stopped)).isSome = false := by decide

theorem witness_ResetStateMeetsTheInvariant : (StackDepth.finite 1).wf = true ∧ StackDepth.unbounded.wf = true := by decide

theorem witness_EveryStepKeepsTheInvariant :
    full2.Inv ∧ (full2.setInput [.submitCommand 0x001#12]).Inv ∧
    (nextOf (step (full2.setInput [.submitCommand 0x001#12]))).isSome = true := by decide

theorem witness_SubmittedWordsFoldTheStep : (st []).line = [] ∧ stopped.line = [] := by decide

theorem witness_SubmittedLineExecutesInOrder :
    (offered [.submitLine (tok ['1', ' ', 'q']), .readStack]).status = .run ∧
    (offered [.submitLine (tok ['1', ' ', 'q']), .readStack]).line = [] ∧
    ([HostAction.readStack].head? ≠ some .reset) ∧ ([HostAction.readStack].head? ≠ some .readStatus) ∧
    ([HostAction.readStack].head? ≠ some .pause) := by decide

theorem witness_LineEqualsItsCommandWords : (st [0x07#8]).status = .run ∧ (st [0x07#8]).line = [] := by decide

theorem witness_FiniteInputIsConsumed : (busyCore.setInput [.reset, .submitLine [], .pause]).Inv := by decide

theorem witness_DumpTextIsTheNumerals :
    (0x00#8 : Byte) ∈ [0x00#8, 0xFF#8] ∧ (decimalNumeral 0x00#8).head? = some 0x30#8 := by decide

theorem witness_PromptTextIsHexPairs : [0x0F#8] ≠ ([] : List Byte) ∧ (0x0F#8 : Byte) ∈ [0x0F#8] := by decide

/-- A finite idle core with two records in its log, one element of the first already transferred. -/
def dumping : State := ((full2.emit (.dump [0x09#8, 0x03#8])).emit (.dump [])).setOutPos 1

theorem test_out_edge_takes_the_record :
    dumping.outPending = some [.element 0x03#8, .last, .last] ∧
    (dumping.outEdges [true, false, true]).map (fun r => (r.1, r.2.taken, r.2.outPending)) =
      some ([.element 0x03#8, .last], 1, some [.last]) := by decide
theorem test_out_port_of_a_busy_core_offers_nothing :
    (dumping.setLine [tok ['5']]).outPending = some [] ∧
    (dumping.setLine [tok ['5']]).outEdge true = some (none, dumping.setLine [tok ['5']]) := by decide

theorem witness_PinsCarryTheTransactions :
    dumping.Inv ∧ dumping.depth ≠ .unbounded ∧ dumping.line = [] ∧ (dumping.setOutPos 0).Inv ∧
    (dumping.outEdge true).map (fun r => r.1) = some (some (.element 0x03#8)) ∧
    (dumping.setOutPos 2).Inv ∧ ((dumping.setOutPos 2).outEdge true).map (fun r => r.1) = some (some .last) ∧
    full2.StackFits ∧ full2.depth = .finite 2 ∧ full2.busy = false ∧ (full2.setLine [tok ['5']]).StackFits ∧
    (full2.setLine [tok ['5']]).busy = true ∧ (st []).depth = .unbounded := by decide

theorem witness_InputPinsMergeIntoSubmissions :
    full2.pins.isSome = true ∧ full2.status = .run ∧ full2.line = [] ∧ full2.input = [] ∧ full2.depth = .finite 2 ∧
    (full2.raise .halted).pins.isSome = true ∧ (full2.raise .halted).status ≠ .run ∧
    (full2.setLine [tok ['5']]).pins.isSome = true ∧ (full2.setLine [tok ['5']]).line ≠ [] ∧
    (∀ a ∈ [HostAction.reset, .submitLine [], .submitCommand 0xFFF#12], a.portTransfers ≠ []) ∧
    submissionsFrom [] [.cmd 0xFFF#12] = some [.submitCommand 0xFFF#12] ∧ tok ['5'] ≠ [] ∧
    (st []).depth = .unbounded := by decide

end Sys2Proof.Tests
end

namespace Sys2Proof.Machine

/-! ## What one instruction can do -/

/-- A field operator pops at most what is there and then pushes one result, whatever the function it computes. -/
theorem State.popTwo_push_eq (s : State) (d v : Byte) :
    ∃ low, low <+: s.stack ∧ (s.popTwo d).2.2.push v = (s.setStack low).push v := by
  obtain ⟨low, hlow, hs⟩ := s.popTwo_state d
  exact ⟨low, hlow, by rw [hs]⟩

/-- DIV either raises its event on the state before, or pops and pushes as the other operators do (R126, D5). -/
theorem State.divide_cases (s : State) :
    s.divide = s.raise .faultDiv0 ∨ ∃ low v, low <+: s.stack ∧ s.divide = (s.setStack low).push v := by
  obtain ⟨low, hlow, hs⟩ := s.popTwo_state 0x00#8
  cases hq : gfDiv (s.popTwo 0x00#8).2.1 (s.popTwo 0x00#8).1 with
  | none => exact .inl (by simp [State.divide, hq, hs])
  | some v => exact .inr ⟨low, v, hlow, by simp [State.divide, hq, hs]⟩

/-- Everything an instruction that has a next state can have done. -/
theorem exec_cases {i : Instr} {s t : State} (h : exec i s = .next t) :
    s.status = .run ∧
    ((∃ low v, low <+: s.stack ∧ t = (s.setStack low).push v) ∨
     (i = .div ∧ t = s.raise .faultDiv0) ∨
     (i = .dump ∧ t = s.emit (.dump s.stack)) ∨
     (i = .clr ∧ t = s.setStack []) ∨
     (i = .term ∧ t = s.raise .halted)) := by
  have additive_push : ∃ low v, low <+: s.stack ∧ s.additive = (s.setStack low).push v := by
    obtain ⟨low, hlow, hs⟩ := s.popTwo_push_eq 0x00#8 _
    exact ⟨low, _, hlow, hs⟩
  cases i with
  | push v =>
    obtain ⟨hr, rfl⟩ := State.whileRunning_next (exec_push_eq v s ▸ h)
    exact ⟨hr, .inl ⟨s.stack, v, List.prefix_rfl, by simp⟩⟩
  | add =>
    obtain ⟨hr, rfl⟩ := State.whileRunning_next (exec_add_eq s ▸ h)
    exact ⟨hr, .inl additive_push⟩
  | xor =>
    obtain ⟨hr, rfl⟩ := State.whileRunning_next (exec_xor_eq s ▸ h)
    exact ⟨hr, .inl additive_push⟩
  | sub =>
    obtain ⟨hr, rfl⟩ := State.whileRunning_next (exec_sub_eq s ▸ h)
    exact ⟨hr, .inl additive_push⟩
  | mul =>
    obtain ⟨hr, rfl⟩ := State.whileRunning_next (exec_mul_eq s ▸ h)
    obtain ⟨low, hlow, hs⟩ := s.popTwo_push_eq 0x01#8 _
    exact ⟨hr, .inl ⟨low, _, hlow, hs⟩⟩
  | div =>
    obtain ⟨hr, rfl⟩ := State.whileRunning_next (exec_div_eq s ▸ h)
    rcases s.divide_cases with hd | hd
    · exact ⟨hr, .inr (.inl ⟨rfl, hd⟩)⟩
    · exact ⟨hr, .inl hd⟩
  | dump =>
    obtain ⟨hr, rfl⟩ := State.whileRunning_next (exec_dump_eq s ▸ h)
    exact ⟨hr, .inr (.inr (.inl ⟨rfl, rfl⟩))⟩
  | clr =>
    obtain ⟨hr, rfl⟩ := State.whileRunning_next (exec_clr_eq s ▸ h)
    exact ⟨hr, .inr (.inr (.inr (.inl ⟨rfl, rfl⟩)))⟩
  | term =>
    obtain ⟨hr, rfl⟩ := State.whileRunning_next (exec_term_eq s ▸ h)
    exact ⟨hr, .inr (.inr (.inr (.inr ⟨rfl, rfl⟩)))⟩

/-- No instruction touches the parameter, the line, the cursor or the host's side. -/
theorem exec_onlyArch {i : Instr} {s t : State} (h : exec i s = .next t) : OnlyArch s t := by
  obtain ⟨-, ⟨low, v, -, rfl⟩ | ⟨-, rfl⟩ | ⟨-, rfl⟩ | ⟨-, rfl⟩ | ⟨-, rfl⟩⟩ := exec_cases h
  · exact (OnlyArch.setStack s low).trans (OnlyArch.push _ v)
  · exact OnlyArch.raise s _
  · exact OnlyArch.emit s _
  · exact OnlyArch.setStack s _
  · exact OnlyArch.raise s _

@[simp] theorem State.push_out (s : State) (v : Byte) : (s.push v).out = s.out := by
  rcases s.push_cases v with ⟨-, hp⟩ | ⟨-, hp⟩ <;> simp [hp]

/-- An instruction writes at most one record, of the stack it found (R28, R135). -/
theorem exec_out {i : Instr} {s t : State} (h : exec i s = .next t) :
    t.out = s.out ∨ t.out = s.out ++ [.dump s.stack] := by
  obtain ⟨-, ⟨low, v, -, rfl⟩ | ⟨-, rfl⟩ | ⟨-, rfl⟩ | ⟨-, rfl⟩ | ⟨-, rfl⟩⟩ := exec_cases h
  · exact .inl (by simp)
  · exact .inl rfl
  · exact .inr rfl
  · exact .inl rfl
  · exact .inl rfl

/-- Every instruction keeps the stack within `STACK_DEPTH` (R20). -/
theorem exec_fits {i : Instr} {s t : State} (hs : s.StackFits) (h : exec i s = .next t) : t.StackFits := by
  obtain ⟨-, ⟨low, v, hlow, rfl⟩ | ⟨-, rfl⟩ | ⟨-, rfl⟩ | ⟨-, rfl⟩ | ⟨-, rfl⟩⟩ := exec_cases h
  · exact State.push_fits (State.setStack_fits hs hlow.length_le) v
  · exact hs
  · exact hs
  · exact State.setStack_fits hs (Nat.zero_le _)
  · exact hs

/-- No instruction raises FAULT_INVARIANT (R194). -/
theorem exec_status_ne_faultInvariant {i : Instr} {s t : State} (h : exec i s = .next t) :
    t.status ≠ .faultInvariant := by
  obtain ⟨hr, ⟨low, v, -, rfl⟩ | ⟨-, rfl⟩ | ⟨-, rfl⟩ | ⟨-, rfl⟩ | ⟨-, rfl⟩⟩ := exec_cases h
  · rcases (s.setStack low).push_cases v with ⟨-, hp⟩ | ⟨-, hp⟩ <;> simp [hp, hr, Cause.status]
  · simp [Cause.status]
  · simp [hr]
  · simp [hr]
  · simp [Cause.status]

/-! ## What one step can do -/

/-- The tokens `rest` are left over, of the line in progress or of a line the host submitted. -/
def State.LeavesTokens (s : State) (rest : List Token) : Prop := rest <:+ s.line ∨ ∃ l : Line, rest <:+ split l

/-- The state in which a step executes its instruction: what was consumed of the host's actions and of the line is gone,
and the cursor has moved (R25). -/
def State.fetched (s : State) (inp : List HostAction) (rest : List Token) (c : Cursor) : State :=
  ((s.setInput inp).setLine rest).setCursor c

/-- The ways in which a step can lead from `s` to a next state: the host acts and no instruction executes, or exactly one
does (R160). -/
inductive Turn (s : State) : State → Prop where
  /-- Reset, in any state (R171). -/
  | resets {more : List HostAction} (hi : s.input = .reset :: more) : Turn s (s.setInput more).resetCore
  /-- Nothing is offered, the host pauses, or a stopped core does not accept a submission (R159, R172, R173). -/
  | idles (hl : s.line = []) : Turn s (s.setInput s.input.tail)
  /-- ReadStatus or ReadStack (R174, R175). -/
  | answers (r : Reply) : Turn s ((s.setInput s.input.tail).addReply r)
  /-- ReadOut (R176). -/
  | handsOver (hl : s.line = []) : Turn s ((s.setInput s.input.tail).handOver s.untaken s.out.length)
  /-- One instruction, of a token or of a submitted word (R155 to R158). -/
  | executes {inp : List HostAction} {rest : List Token} {c : Cursor} {i : Instr} {u : State}
      (hi : inp <:+ s.input) (hl : s.LeavesTokens rest)
      (hc : c = s.cursor.afterToken rest.isEmpty ∨ c = s.cursor.afterCommand)
      (hx : exec i (s.fetched inp rest c) = .next u) : Turn s u.dropLineIfStopped

theorem Turn.of_runToken {s t : State} {inp : List HostAction} {tk : Token} {rest : List Token}
    (hi : inp <:+ s.input) (hl : s.LeavesTokens rest) (h : runToken tk rest (s.setInput inp) = .next t) :
    Turn s t := by
  obtain ⟨u, hx, rfl⟩ := settle_next h
  exact .executes hi hl (.inl rfl) hx

theorem Turn.of_startLine {s t : State} {inp : List HostAction} {l : Line}
    (hi : inp <:+ s.input) (h : startLine l (s.setInput inp) = .next t) : Turn s t := by
  unfold startLine at h
  cases hsp : split l with
  | nil => exact absurd hsp (split_ne_nil l)
  | cons tk rest =>
    rw [hsp] at h
    exact .of_runToken hi (.inr ⟨l, hsp ▸ List.suffix_cons tk rest⟩) h

theorem Turn.of_runCommand {s t : State} {inp : List HostAction} {cw : CmdWord}
    (hi : inp <:+ s.input) (h : runCommand cw (s.setInput inp) = .next t) : Turn s t := by
  obtain ⟨u, hx, rfl⟩ := settle_next h
  exact .executes hi (.inl List.suffix_rfl) (.inr rfl) hx

/-- Work on the line in progress, or whatever the idle core does. -/
theorem Turn.of_workOr {s t : State} {inp : List HostAction} {idle : Result} (hi : inp <:+ s.input)
    (h : (s.setInput inp).workOr idle = .next t) (hidle : s.line = [] → idle = .next t → Turn s t) : Turn s t := by
  cases hl : s.line with
  | nil => exact hidle hl (by rwa [State.workOr_idle (by simpa using hl)] at h)
  | cons tk rest =>
    rw [State.workOr_busy (by simpa using hl)] at h
    exact .of_runToken hi (.inl (hl ▸ List.suffix_cons tk rest)) h

/-- A submission meets the idle core. -/
theorem Turn.of_acceptIfRunning {s t : State} {a : HostAction} {more : List HostAction} {accepted : Result}
    (hin : s.input = a :: more) (hl : s.line = [])
    (h : (s.setInput more).acceptIfRunning accepted = .next t) (hacc : accepted = .next t → Turn s t) : Turn s t := by
  by_cases hr : s.status = .run
  · exact hacc (by rwa [State.acceptIfRunning_run (by simpa using hr)] at h)
  · rw [State.acceptIfRunning_stopped (by simpa using hr)] at h
    cases h
    simpa [hin] using Turn.idles hl

/-- A core to which nothing is offered has a next state only while it runs, and that is the state it is in (R159). -/
theorem State.waitForHost_next {s t : State} (h : s.waitForHost = .next t) : s.status = .run ∧ t = s := by
  by_cases hr : s.status = .run
  · rw [State.waitForHost, if_pos hr] at h
    cases h
    exact ⟨hr, rfl⟩
  · rw [State.waitForHost, if_neg hr] at h
    cases h

/-- A step that has a next state took one of the ways of `Turn`. -/
theorem step_turn {s t : State} (h : step s = .next t) : Turn s t := by
  have whole : s.input <:+ s.input := List.suffix_rfl
  rw [step, turn] at h
  cases hin : s.input with
  | nil =>
    rw [hin] at h
    refine .of_workOr whole h fun hl hw => ?_
    obtain ⟨-, rfl⟩ := State.waitForHost_next hw
    have nothing_taken : t.input.tail = t.input := by simp [hin]
    simpa only [nothing_taken, State.setInput_self] using Turn.idles hl
  | cons a more =>
    rw [hin] at h
    have later : more <:+ s.input := hin ▸ List.suffix_cons a more
    have tail : s.input.tail = more := by simp [hin]
    cases a with
    | reset => cases h; exact .resets hin
    | readStatus => cases h; exact tail ▸ .answers (.status s.status.code)
    | pause => exact .of_workOr later h fun hl hn => by cases hn; exact tail ▸ .idles hl
    | readStack => exact .of_workOr whole h fun _ hn => by cases hn; exact tail ▸ .answers (.stack s.stack)
    | readOut => exact .of_workOr whole h fun hl hn => by cases hn; exact tail ▸ .handsOver hl
    | submitLine l => exact .of_workOr whole h fun hl ha => .of_acceptIfRunning hin hl ha (.of_startLine later)
    | submitCommand cw => exact .of_workOr whole h fun hl ha => .of_acceptIfRunning hin hl ha (.of_runCommand later)

/-- What settling leaves: the same state but for the line, of which nothing is left once STATUS has left RUN (R158). -/
theorem State.dropLineIfStopped_eq_setLine (s : State) :
    ∃ l, l <:+ s.line ∧ (s.status ≠ .run → l = []) ∧ s.dropLineIfStopped = s.setLine l := by
  rcases s.dropLineIfStopped_cases with ⟨hr, h⟩ | ⟨_, h⟩
  · exact ⟨s.line, List.suffix_rfl, fun hn => absurd hr hn, h⟩
  · exact ⟨[], List.nil_suffix, fun _ => rfl, h⟩

/-! ## The invariant, conjunct by conjunct -/

@[simp] theorem fitsIn_zero (d : StackDepth) : fitsIn d 0 = true := by
  cases d <;> simp [fitsIn]

theorem State.resetFor_inv {d : StackDepth} (hd : d.wf = true) : (State.resetFor d).Inv :=
  ⟨⟨hd, fitsIn_zero d⟩, fun _ => rfl, by simp, Nat.le_refl _, Nat.zero_le _, by simp⟩

/-- No token of a line holds a space (R61). -/
theorem splitFrom_tokenWf (l : Line) {cur : Token} (hcur : tokenWf cur = true) :
    ∀ t ∈ splitFrom cur l, tokenWf t = true := by
  induction l generalizing cur with
  | nil => simpa [splitFrom] using hcur
  | cons ch rest ih =>
    by_cases hch : ch = chSpace
    · have hrest := ih (cur := []) rfl
      simpa [splitFrom, hch, hcur] using hrest
    · have hgrown : tokenWf (cur ++ [ch]) = true := by
        simp only [tokenWf] at hcur
        simp [tokenWf, List.all_append, hcur, hch]
      simpa [splitFrom, hch] using ih hgrown

theorem State.LeavesTokens.tokenWf {s : State} {rest : List Token} (h : s.LeavesTokens rest)
    (hs : ∀ t ∈ s.line, tokenWf t = true) : ∀ t ∈ rest, tokenWf t = true := by
  rcases h with h | ⟨l, h⟩
  · exact fun t ht => hs t (h.mem ht)
  · exact fun t ht => splitFrom_tokenWf l (cur := []) rfl t (h.mem ht)

/-- A log that only grows never shortens the record that the host is in the middle of. -/
theorem State.nextElements_length_le {s t : State} (hout : s.out <+: t.out) (htaken : t.taken = s.taken) :
    s.nextElements.length ≤ t.nextElements.length := by
  obtain ⟨new, hnew⟩ := hout
  cases hu : s.untaken with
  | nil => simp [State.nextElements, hu]
  | cons r rest =>
    have ht : t.untaken = r :: (rest ++ new.drop (s.taken - s.out.length)) := by
      rw [State.untaken, ← hnew, htaken, List.drop_append, ← List.cons_append, ← hu, State.untaken]
    simp [State.nextElements, hu, ht]

/-- What the log held before an instruction is the beginning of what it holds after. -/
theorem exec_out_prefix {i : Instr} {s t : State} (h : exec i s = .next t) : s.out <+: t.out := by
  rcases exec_out h with h | h <;> simp [h]

/-- An instruction keeps the host's position inside the log (R176, R178). -/
theorem exec_host_position {i : Instr} {s t : State} (h : exec i s = .next t) (htaken : s.taken ≤ s.out.length)
    (hpos : s.outPos ≤ s.nextElements.length) : t.taken ≤ t.out.length ∧ t.outPos ≤ t.nextElements.length := by
  have frame := exec_onlyArch h
  have grows := exec_out_prefix h
  rw [frame.taken, frame.outPos]
  exact ⟨htaken.trans grows.length_le, hpos.trans (State.nextElements_length_le grows frame.taken)⟩

/-- Settling an executed instruction restores what the invariant says of the line. -/
theorem exec_settled_inv {i : Instr} {s u : State} (h : exec i s = .next u) (hfit : s.StackFits)
    (htok : ∀ t ∈ s.line, tokenWf t = true) (htaken : s.taken ≤ s.out.length)
    (hpos : s.outPos ≤ s.nextElements.length) : u.dropLineIfStopped.Inv := by
  obtain ⟨l, hl, hstop, hd⟩ := u.dropLineIfStopped_eq_setLine
  obtain ⟨htaken', hpos'⟩ := exec_host_position h htaken hpos
  have hfit' := exec_fits hfit h
  have hst := exec_status_ne_faultInvariant h
  rw [(exec_onlyArch h).line] at hl
  rw [hd]
  exact ⟨hfit', hstop, fun t ht => htok t (hl.mem ht), htaken', hpos', hst⟩

theorem Turn.inv {s t : State} (hs : s.Inv) (h : Turn s t) : t.Inv := by
  obtain ⟨hfit, hstop, htok, htaken, hpos, hst⟩ := hs
  cases h with
  | resets _ => exact State.resetFor_inv hfit.1
  | idles _ => exact ⟨hfit, hstop, htok, htaken, hpos, hst⟩
  | answers _ => exact ⟨hfit, hstop, htok, htaken, hpos, hst⟩
  | handsOver _ => exact ⟨hfit, hstop, htok, Nat.le_refl _, Nat.zero_le _, hst⟩
  | executes _ hl _ hx => exact exec_settled_inv hx hfit (hl.tokenWf htok) htaken hpos

/-! ## The obligations -/

/-- Settles O52: every way of `Turn` keeps each conjunct. -/
theorem everyStepKeepsTheInvariant : Obligations.EveryStepKeepsTheInvariant :=
  fun _ _ hs h => (step_turn h).inv hs

/-- Settles O48: only an executed instruction writes the log, outside Reset, and only a read gives a reply. -/
theorem outputLogIsAppendOnly : Obligations.OutputLogIsAppendOnly := by
  intro s t h
  cases step_turn h with
  | resets hi => exact ⟨fun hne => absurd (by simp [hi]) hne, rfl, List.prefix_rfl⟩
  | idles _ => exact ⟨fun _ => .inl rfl, rfl, List.prefix_rfl⟩
  | answers r => exact ⟨fun _ => .inl rfl, rfl, List.prefix_append _ _⟩
  | handsOver _ => exact ⟨fun _ => .inl rfl, rfl, List.prefix_append _ _⟩
  | executes _ _ _ hx =>
    obtain ⟨l, -, -, hd⟩ := State.dropLineIfStopped_eq_setLine _
    rw [hd]
    have frame := exec_onlyArch hx
    have record := exec_out hx
    exact ⟨fun _ => record, frame.depth, frame.replies ▸ List.prefix_rfl⟩

/-- Settles O51: `State.reset` is `State.resetFor .unbounded`, so one lemma serves both parts. -/
theorem resetStateMeetsTheInvariant : Obligations.ResetStateMeetsTheInvariant :=
  ⟨State.resetFor_inv rfl, fun _ hd => State.resetFor_inv hd⟩

end Sys2Proof.Machine

namespace Sys2Proof.Machine

/-! ## The five binary operators, once for all -/

/-- The instructions that pop two operands. -/
abbrev binaryOperators : List Instr := [.add, .xor, .sub, .mul, .div]

/-- A binary operator with default `d` and operation `f` of the first-popped and the second-popped operand: the result
is pushed, and where there is none `FAULT_DIV0` is raised on the state before (R115 to R117, R125, R126). -/
def State.binary (d : Byte) (f : Byte → Byte → Option Byte) (s : State) : State :=
  match f (s.popTwo d).1 (s.popTwo d).2.1 with
  | some v => (s.popTwo d).2.2.push v
  | none => s.raise .faultDiv0

theorem State.additive_eq_binary : State.additive = State.binary 0x00#8 (fun a b => some (gfAdd a b)) := rfl

theorem State.multiply_eq_binary : State.multiply = State.binary 0x01#8 (fun a b => some (gfMul a b)) := rfl

theorem State.divide_eq_binary : State.divide = State.binary 0x00#8 (fun a b => gfDiv b a) := by
  funext s
  obtain ⟨low, -, hs⟩ := s.popTwo_state 0x00#8
  cases hq : gfDiv (s.popTwo 0x00#8).2.1 (s.popTwo 0x00#8).1 <;> simp [State.divide, State.binary, hq, hs]

/-- Each binary operator is `State.binary` of some default and operation, which has a result for every two operands but
in DIV. -/
theorem exec_eq_binary {i : Instr} (hi : i ∈ binaryOperators) :
    ∃ d f, (∀ a b, f a b = none → i = .div) ∧ ∀ s, exec i s = s.whileRunning (State.binary d f) := by
  simp only [List.mem_cons, List.not_mem_nil, or_false] at hi
  obtain rfl | rfl | rfl | rfl | rfl := hi
  · exact ⟨_, _, by simp, fun s => State.additive_eq_binary ▸ exec_add_eq s⟩
  · exact ⟨_, _, by simp, fun s => State.additive_eq_binary ▸ exec_xor_eq s⟩
  · exact ⟨_, _, by simp, fun s => State.additive_eq_binary ▸ exec_sub_eq s⟩
  · exact ⟨_, _, by simp, fun s => State.multiply_eq_binary ▸ exec_mul_eq s⟩
  · exact ⟨_, _, fun _ _ _ => rfl, fun s => State.divide_eq_binary ▸ exec_div_eq s⟩

/-- PUSH, the binary operators and the three instructions without operands are all nine. -/
theorem instr_kinds (i : Instr) :
    (∃ v, i = .push v) ∨ i ∈ binaryOperators ∨ i = .dump ∨ i = .clr ∨ i = .term := by
  cases i <;> simp

/-- The two pops split the stack, the second part holding two elements or as many as there are (R42). -/
theorem State.popTwo_split (s : State) (d : Byte) :
    ∃ low removed, s.stack = low ++ removed ∧ removed.length = min 2 s.stack.length ∧
      (s.popTwo d).2.2 = s.setStack low := by
  rcases s.popTwo_cases d with ⟨h, hp⟩ | ⟨x, h, hp⟩ | ⟨low, y, x, h, hp⟩
  · exact ⟨[], [], h, by simp [h], by simp [hp, ← h]⟩
  · exact ⟨[], [x], h, by simp [h], by simp [hp]⟩
  · exact ⟨low, [y, x], h, by simp [h], by simp [hp]⟩

/-- Without its two topmost elements a stack that fits is not full. -/
theorem State.not_full_of_split {s : State} (hs : s.StackFits) {low removed : List Byte}
    (hsplit : s.stack = low ++ removed) (hcount : removed.length = min 2 s.stack.length) :
    (s.setStack low).isFull = false := by
  have hlen : s.stack.length = low.length + removed.length := by simp [hsplit]
  refine State.not_full_after_pops hs ?_
  rw [← List.length_eq_zero_iff]
  omega

/-- What a binary operator can do: DIV's event on the state before, or one `Push` in place of the operands. -/
theorem exec_binary_cases {i : Instr} {s t : State} (hi : i ∈ binaryOperators) (h : exec i s = .next t) :
    (i = .div ∧ t = s.raise .faultDiv0) ∨
    ∃ low removed v, s.stack = low ++ removed ∧ removed.length = min 2 s.stack.length ∧
      t = (s.setStack low).push v := by
  obtain ⟨d, f, hdiv, hx⟩ := exec_eq_binary hi
  obtain ⟨-, rfl⟩ := State.whileRunning_next (hx s ▸ h)
  obtain ⟨low, removed, hsplit, hcount, hp⟩ := s.popTwo_split d
  cases hf : f (s.popTwo d).1 (s.popTwo d).2.1 with
  | none => exact .inl ⟨hdiv _ _ hf, by simp [State.binary, hf]⟩
  | some v => exact .inr ⟨low, removed, v, hsplit, hcount, by simp [State.binary, hf, hp]⟩

/-- The same on a stack that fits, where the `Push` cannot overflow (R44). -/
theorem exec_binary_cases_of_fits {i : Instr} {s t : State} (hi : i ∈ binaryOperators) (hs : s.StackFits)
    (h : exec i s = .next t) :
    (i = .div ∧ t = s.raise .faultDiv0) ∨
    ∃ low removed v, s.stack = low ++ removed ∧ removed.length = min 2 s.stack.length ∧
      t = s.setStack (low ++ [v]) := by
  rcases exec_binary_cases hi h with hdiv | ⟨low, removed, v, hsplit, hcount, rfl⟩
  · exact .inl hdiv
  · exact .inr ⟨low, removed, v, hsplit, hcount,
      State.push_of_not_full (State.not_full_of_split hs hsplit hcount) v⟩

theorem exec_push_next {v : Byte} {s t : State} (h : exec (.push v) s = .next t) : t = s.push v :=
  (State.whileRunning_next (exec_push_eq v s ▸ h)).2

theorem exec_dump_next {s t : State} (h : exec .dump s = .next t) : t = s.emit (.dump s.stack) :=
  (State.whileRunning_next (exec_dump_eq s ▸ h)).2

theorem exec_clr_next {s t : State} (h : exec .clr s = .next t) : t = s.setStack [] :=
  (State.whileRunning_next (exec_clr_eq s ▸ h)).2

theorem exec_term_next {s t : State} (h : exec .term s = .next t) : t = s.raise .halted :=
  (State.whileRunning_next (exec_term_eq s ▸ h)).2

/-- Full in the sense of R41: the depth is the number of elements. -/
theorem State.isFull_iff {s : State} : s.isFull = true ↔ s.depth = .finite s.stack.length := by
  cases hd : s.depth with
  | unbounded => simp [State.isFull, isFullAt, hd]
  | finite cells => simpa [State.isFull, isFullAt, hd] using eq_comm

theorem State.isFull_eq_false_iff {s : State} : s.isFull = false ↔ s.depth ≠ .finite s.stack.length := by
  rw [← Bool.not_eq_true, State.isFull_iff, ne_eq]

/-- What `Push` leaves of the stack (R41). -/
theorem State.push_stack (s : State) (v : Byte) :
    (s.push v).stack = s.stack ++ if s.depth = .finite s.stack.length then [] else [v] := by
  rcases s.push_cases v with ⟨hf, hp⟩ | ⟨hf, hp⟩
  · simp [hp, State.isFull_iff.mp hf]
  · simp [hp, State.isFull_eq_false_iff.mp hf]

/-! ## What an instruction leaves unchanged -/

/-- Settles O37: the architectural part by the kind of instruction, the rest by the frame that all nine share. -/
theorem instructionFrame : Obligations.InstructionFrame := by
  intro i s t hs h
  obtain ⟨hdepth, hline, hcursor, hinput, htaken, houtPos, hreplies⟩ := exec_onlyArch h
  refine and_assoc.mp (and_assoc.mp (and_assoc.mp ⟨?_, hdepth, hline, hcursor, hinput, htaken, houtPos, hreplies⟩))
  rcases instr_kinds i with ⟨v, rfl⟩ | hop | rfl | rfl | rfl
  · obtain rfl := exec_push_next h
    simp
  · rcases exec_binary_cases_of_fits hop hs h with ⟨rfl, rfl⟩ | ⟨low, removed, v, -, -, rfl⟩
    · simp
    · have hne : i ≠ .dump ∧ i ≠ .term := by constructor <;> rintro rfl <;> simp at hop
      simp [hne]
  · obtain rfl := exec_dump_next h
    simp
  · obtain rfl := exec_clr_next h
    simp
  · obtain rfl := exec_term_next h
    simp

/-- Settles O38: each kind of instruction has its own split of the stack. -/
theorem stackIsWrittenAtTheTopOnly : Obligations.StackIsWrittenAtTheTopOnly := by
  intro i s t h hclr
  have hrun : s.status = .run := (exec_cases h).1
  rcases instr_kinds i with ⟨v, rfl⟩ | hop | rfl | rfl | rfl
  · obtain rfl := exec_push_next h
    refine ⟨s.stack, [], _, by simp, s.push_stack v, by simp, by split <;> simp, ?_, by simp, by simp⟩
    rintro w hw
    cases hw
    exact ⟨rfl, rfl⟩
  · have hpush : ∀ v, i ≠ .push v := by rintro v rfl; simp at hop
    have hplain : ¬ (i = .dump ∨ i = .term) := by rintro (rfl | rfl) <;> simp at hop
    rcases exec_binary_cases hop h with ⟨rfl, rfl⟩ | ⟨low, removed, v, hsplit, hcount, rfl⟩
    · exact ⟨s.stack, [], [], by simp, by simp, by simp, by simp, by simp, by simp,
        fun _ _ => by simp [Cause.status]⟩
    · refine ⟨low, removed, _, hsplit, State.push_stack _ v, by omega, by split <;> simp,
        fun w hw => absurd hw (hpush w), fun hi => absurd hi hplain, fun _ hs => ?_⟩
      have hroom := State.not_full_of_split hs hsplit hcount
      have hadded : s.depth ≠ .finite low.length := State.isFull_eq_false_iff.mp hroom
      simp [State.push_of_not_full hroom, hrun, hcount, hadded]
  · obtain rfl := exec_dump_next h
    exact ⟨s.stack, [], [], by simp⟩
  · exact absurd rfl hclr
  · obtain rfl := exec_term_next h
    exact ⟨s.stack, [], [], by simp⟩

/-! ## What an instruction reads -/

/-- What a binary operator does with two elements on top of a stack that fits. -/
theorem State.binary_of_two {s : State} {low : List Byte} {y x : Byte} (h : s.stack = low ++ [y, x])
    (hs : s.StackFits) (d : Byte) (f : Byte → Byte → Option Byte) :
    s.binary d f = (f x y).elim (s.raise .faultDiv0) fun v => s.setStack (low ++ [v]) := by
  have hp : s.popTwo d = (x, y, s.setStack low) := by
    simp [State.popTwo, State.popOr, h]
  have hroom : (s.setStack low).isFull = false := State.not_full_of_split hs h (by simp [h])
  cases hf : f x y <;> simp [State.binary, hp, hf, State.push_of_not_full hroom]

/-- What a binary operator does to a stack that fits and has two elements on top is decided by these two. -/
theorem exec_binary_of_two {i : Instr} (hi : i ∈ binaryOperators) (y x : Byte) :
    ∃ result : Option Byte, ∀ {s : State} {low : List Byte}, s.status = .run → s.StackFits →
      s.stack = low ++ [y, x] →
      exec i s = .next (result.elim (s.raise .faultDiv0) fun v => s.setStack (low ++ [v])) := by
  obtain ⟨d, f, -, hx⟩ := exec_eq_binary hi
  exact ⟨f x y, fun hr hs h => by rw [hx, State.whileRunning_run hr, State.binary_of_two h hs]⟩

theorem exec_push_of_run {s : State} (hr : s.status = .run) (v : Byte) : exec (.push v) s = .next (s.push v) :=
  (exec_push_eq v s).trans (State.whileRunning_run hr _)

/-- Settles O39: what a binary operator does is decided by the two operands, what PUSH does by the number of
elements. -/
theorem onlyTheTopTwoAreRead : Obligations.OnlyTheTopTwoAreRead := by
  intro i s y x n hr hdump hclr
  have hrun : ∀ low, (s.setStack low).status = .run := fun _ => hr
  rcases instr_kinds i with ⟨v, rfl⟩ | hop | rfl | rfl | rfl
  · have hfullness : ∀ low : List Byte, s.depth = .unbounded ∨ low.length = n →
        (s.setStack (low ++ [y, x])).isFull = isFullAt s.depth (n + 2) := by
      rintro low (hd | rfl)
      · simp [State.isFull, isFullAt, hd]
      · simp [State.isFull]
    cases hfull : isFullAt s.depth (n + 2) with
    | true =>
      refine ⟨[y, x], .faultStackOvf, fun low _ hn => (exec_push_of_run (hrun (low ++ [y, x])) v).trans ?_⟩
      rw [State.push_of_full ((hfullness low (hn ⟨v, rfl⟩)).trans hfull)]
      rfl
    | false =>
      refine ⟨[y, x, v], .run, fun low _ hn => (exec_push_of_run (hrun (low ++ [y, x])) v).trans ?_⟩
      rw [State.push_of_not_full ((hfullness low (hn ⟨v, rfl⟩)).trans hfull), ← hr]
      simp [State.setStack]
  · obtain ⟨result, hx⟩ := exec_binary_of_two hop y x
    cases result with
    | none => exact ⟨[y, x], .faultDiv0, fun low hs _ => hx (hrun (low ++ [y, x])) hs rfl⟩
    | some v =>
      refine ⟨[v], .run, fun low hs _ => (hx (hrun (low ++ [y, x])) hs rfl).trans ?_⟩
      rw [← hr]
      rfl
  · exact absurd rfl hdump
  · exact absurd rfl hclr
  · refine ⟨[y, x], .halted, fun low _ _ => ?_⟩
    exact (exec_term_eq _).trans (State.whileRunning_run (hrun (low ++ [y, x])) _)

/-- PUSH commutes with the bookkeeping of a fetch. -/
theorem State.push_fetched (s : State) (inp : List HostAction) (rest : List Token) (c : Cursor) (v : Byte) :
    (s.fetched inp rest c).push v = (s.push v).fetched inp rest c := by
  have hfull : (s.fetched inp rest c).isFull = s.isFull := rfl
  cases h : s.isFull with
  | true => rw [State.push_of_full h, State.push_of_full (hfull.trans h)]; rfl
  | false => rw [State.push_of_not_full h, State.push_of_not_full (hfull.trans h)]; rfl

theorem State.popOr_fetched (s : State) (inp : List HostAction) (rest : List Token) (c : Cursor) (d : Byte) :
    (s.fetched inp rest c).popOr d = ((s.popOr d).1, (s.popOr d).2.fetched inp rest c) := by
  have hstack : (s.fetched inp rest c).stack = s.stack := rfl
  rcases s.popOr_cases d with ⟨h, hp⟩ | ⟨low, v, h, hp⟩
  · rw [hp, State.popOr_nil (hstack.trans h)]
  · rw [hp, State.popOr_concat (hstack.trans h)]
    rfl

theorem State.popTwo_fetched (s : State) (inp : List HostAction) (rest : List Token) (c : Cursor) (d : Byte) :
    (s.fetched inp rest c).popTwo d =
      ((s.popTwo d).1, (s.popTwo d).2.1, (s.popTwo d).2.2.fetched inp rest c) := by
  simp only [State.popTwo, State.popOr_fetched]

theorem State.binary_fetched (s : State) (inp : List HostAction) (rest : List Token) (c : Cursor) (d : Byte)
    (f : Byte → Byte → Option Byte) :
    (s.fetched inp rest c).binary d f = (s.binary d f).fetched inp rest c := by
  unfold State.binary
  rw [State.popTwo_fetched]
  cases f (s.popTwo d).1 (s.popTwo d).2.1 with
  | none => rfl
  | some v => exact State.push_fetched _ _ _ _ v

/-- No instruction reads the line, the cursor or the host's actions: it does the same whatever was fetched. -/
theorem exec_fetched {i : Instr} {s t : State} (h : exec i s = .next t) (inp : List HostAction) (rest : List Token)
    (c : Cursor) : exec i (s.fetched inp rest c) = .next (t.fetched inp rest c) := by
  have hr : (s.fetched inp rest c).status = .run := (exec_cases h).1
  rcases instr_kinds i with ⟨v, rfl⟩ | hop | rfl | rfl | rfl
  · rw [exec_push_of_run hr, exec_push_next h, State.push_fetched]
  · obtain ⟨d, f, -, hx⟩ := exec_eq_binary hop
    obtain ⟨-, rfl⟩ := State.whileRunning_next (hx s ▸ h)
    rw [hx, State.whileRunning_run hr, State.binary_fetched]
  · rw [exec_dump_eq, State.whileRunning_run hr, exec_dump_next h]; rfl
  · rw [exec_clr_eq, State.whileRunning_run hr, exec_clr_next h]; rfl
  · rw [exec_term_eq, State.whileRunning_run hr, exec_term_next h]; rfl

/-! ## One step -/

/-- Settles O44: without Reset only an executed instruction changes the architectural state, and it runs only
under RUN. -/
theorem onlyResetLeavesAStop : Obligations.OnlyResetLeavesAStop := by
  intro s t hstop h hreset
  cases step_turn h with
  | resets hi => exact absurd (by simp [hi]) hreset
  | idles _ => exact ⟨rfl, rfl, rfl, rfl, rfl⟩
  | answers _ => exact ⟨rfl, rfl, rfl, rfl, rfl⟩
  | handsOver _ => exact ⟨rfl, rfl, rfl, rfl, rfl⟩
  | executes _ _ _ hx => exact absurd (exec_cases hx).1 hstop

/-- After an instruction the cursor is one further, in one of the three ways of R25. -/
theorem cursor_advances {c c' : Cursor} {last : Bool} (h : c' = c.afterToken last ∨ c' = c.afterCommand) :
    c'.command = c.command + 1 ∧
      ((c'.line = c.line ∧ c'.token = c.token) ∨ (c'.line = c.line ∧ c'.token = c.token + 1) ∨
        (c'.line = c.line + 1 ∧ c'.token = 0)) := by
  rcases h with rfl | rfl
  · cases last with
    | true => exact ⟨rfl, .inr (.inr ⟨rfl, rfl⟩)⟩
    | false => exact ⟨rfl, .inr (.inl ⟨rfl, rfl⟩)⟩
  · exact ⟨rfl, .inl ⟨rfl, rfl⟩⟩

/-- Dropping the rest of the line writes the line only. -/
theorem State.dropLineIfStopped_cursor (s : State) : s.dropLineIfStopped.cursor = s.cursor := by
  obtain ⟨l, -, -, h⟩ := s.dropLineIfStopped_eq_setLine
  rw [h, State.setLine_cursor]

/-- Settles O49: the ways of `Turn`; the fetched state differs from `s` in what no instruction reads. -/
theorem oneStepExecutesAtMostOneInstruction : Obligations.OneStepExecutesAtMostOneInstruction := by
  intro s t h hreset
  cases step_turn h with
  | resets hi => exact absurd (by simp [hi]) hreset
  | idles _ => exact .inl ⟨rfl, rfl⟩
  | answers _ => exact .inl ⟨rfl, rfl⟩
  | handsOver _ => exact .inl ⟨rfl, rfl⟩
  | @executes inp rest c i u _ _ hc hx =>
    have before : exec i s = .next (u.fetched s.input s.line s.cursor) := exec_fetched hx s.input s.line s.cursor
    have hcursor : u.dropLineIfStopped.cursor = c := u.dropLineIfStopped_cursor.trans (exec_onlyArch hx).cursor
    rw [hcursor]
    exact .inr ⟨(exec_cases hx).1, ⟨i, _, before, u.dropLineIfStopped_arch⟩, cursor_advances hc⟩

/-- With no line in progress there is nothing for settling to drop. -/
theorem settle_exec_of_idle {s : State} (h : s.line = []) (i : Instr) : settle (exec i s) = exec i s := by
  cases hx : exec i s with
  | next u =>
    have hu : u.setLine [] = u := by rw [← h, ← (exec_onlyArch hx).line, State.setLine_self]
    rcases u.dropLineIfStopped_cases with ⟨-, hd⟩ | ⟨-, hd⟩ <;> simp [settle, hd, hu]
  | fault _ => rfl
  | refused _ => rfl

/-- Settles O40: the idle running core takes the word up, and settling has nothing to drop. -/
theorem stepRunsTheSubmittedWord : Obligations.StepRunsTheSubmittedWord := by
  intro s cw more hr hl hi
  calc step s = s.workOr ((s.setInput more).acceptIfRunning (runCommand cw (s.setInput more))) := by
        rw [step, turn, hi]
    _ = runCommand cw (s.setInput more) := by
        rw [State.workOr_idle hl, State.acceptIfRunning_run (by simpa using hr)]
    _ = exec (decode cw) ((s.setInput more).setCursor s.cursor.afterCommand) :=
        settle_exec_of_idle (by simpa using hl) _

/-- A busy core goes on with its line unless the host resets or reads the status; of the host's actions it takes a pause
only (R157, log 3, 4). -/
theorem step_of_busy {s : State} {t : Token} {rest : List Token} (hl : s.line = t :: rest)
    (hreset : s.input.head? ≠ some .reset) (hstatus : s.input.head? ≠ some .readStatus) :
    step s = runToken t rest
      (s.setInput (if s.input.head? = some .pause then s.input.tail else s.input)) := by
  rw [step, turn]
  cases hi : s.input with
  | nil =>
    have keep : s.setInput [] = s := hi ▸ s.setInput_self
    simpa [keep] using State.workOr_busy hl _
  | cons a more =>
    have keep : s.setInput (a :: more) = s := hi ▸ s.setInput_self
    cases a with
    | reset => simp [hi] at hreset
    | readStatus => simp [hi] at hstatus
    | pause => simpa using State.workOr_busy (s := s.setInput more) hl _
    | submitLine _ => simpa [keep] using State.workOr_busy hl _
    | submitCommand _ => simpa [keep] using State.workOr_busy hl _
    | readStack => simpa [keep] using State.workOr_busy hl _
    | readOut => simpa [keep] using State.workOr_busy hl _

/-- The cursor after a token, by whether any token is left (R25). -/
theorem afterToken_isEmpty (c : Cursor) (rest : List Token) :
    c.afterToken rest.isEmpty =
      if rest = [] then ⟨c.line + 1, 0, c.command + 1⟩ else ⟨c.line, c.token + 1, c.command + 1⟩ := by
  cases rest <;> rfl

theorem State.dropLineIfStopped_eq_ite (s : State) :
    s.dropLineIfStopped = { s with line := if s.status = .run then s.line else [] } := by
  rcases s.dropLineIfStopped_cases with ⟨hr, h⟩ | ⟨hr, h⟩
  · rw [h, if_pos hr]
  · rw [h, if_neg hr]
    rfl

/-- Settles O41: the busy core runs the token, and settling drops the rest of the line after an event. -/
theorem stepRunsTheNextToken : Obligations.StepRunsTheNextToken := by
  intro s u t rest hl hreset hstatus hx
  rw [← afterToken_isEmpty] at hx
  calc step s = settle (.next u) := (step_of_busy hl hreset hstatus).trans (congrArg settle hx)
    _ = .next { u with line := if u.status = .run then u.line else [] } :=
        congrArg Host.Outcome.next u.dropLineIfStopped_eq_ite

/-! ## Reset -/

/-- Reset is answered at once, in any state (R171). -/
theorem step_reset {s : State} {more : List HostAction} (h : s.input = .reset :: more) :
    step s = .next (s.setInput more).resetCore := by
  rw [step, turn, h]

/-- Settles O45. -/
theorem resetRestoresTheResetState : Obligations.ResetRestoresTheResetState :=
  fun _ _ h => step_reset h

/-- Settles O46: each field has the value that `State.resetFor` gives it. -/
theorem resetStateValues : Obligations.ResetStateValues := by
  unfold Obligations.ResetStateValues State.reset
  simp [Status.code]

end Sys2Proof.Machine

namespace Sys2Proof.Machine

/-! ## Multiplication commutes with what is additive and commutes with `xtime` -/

/-- The step of the multiplier is additive, the reduction included (R91). -/
theorem xtime_xor (a b : Byte) : xtime (a ^^^ b) = xtime a ^^^ xtime b := by
  have hshift : (a ^^^ b) <<< 1 = a <<< 1 ^^^ b <<< 1 := BitVec.shiftLeft_xor_distrib a b 1
  simp only [xtime, BitVec.getLsbD_xor, hshift]
  have hcancel : a <<< 1 ^^^ reductionConstant ^^^ (b <<< 1 ^^^ reductionConstant) =
      a <<< 1 ^^^ b <<< 1 ^^^ (reductionConstant ^^^ reductionConstant) := by ac_rfl
  cases a.getLsbD 7 <;> cases b.getLsbD 7
  · rfl
  · exact BitVec.xor_assoc (a <<< 1) (b <<< 1) reductionConstant
  · change a <<< 1 ^^^ b <<< 1 ^^^ reductionConstant = a <<< 1 ^^^ reductionConstant ^^^ b <<< 1
    ac_rfl
  · simp [hcancel]

/-- The iterations of the multiplier are additive in accumulator and multiplicand together. -/
theorem mulIterations_xor (n : Nat) (acc acc' a a' b : Byte) :
    (mulIterations n ⟨acc ^^^ acc', a ^^^ a', b⟩).acc =
      (mulIterations n ⟨acc, a, b⟩).acc ^^^ (mulIterations n ⟨acc', a', b⟩).acc := by
  induction n generalizing acc acc' a a' b with
  | zero => rfl
  | succ n ih =>
    have hacc : acc ^^^ acc' ^^^ (a ^^^ a') = acc ^^^ a ^^^ (acc' ^^^ a') := by ac_rfl
    simp only [mulIterations, mulIteration, xtime_xor]
    cases b.getLsbD 0 with
    | false => exact ih acc acc' (xtime a) (xtime a') (b >>> 1)
    | true => simpa [hacc] using ih (acc ^^^ a) (acc' ^^^ a') (xtime a) (xtime a') (b >>> 1)

/-- An additive map that commutes with `xtime` commutes with every iteration of the multiplier. -/
theorem mulIterations_map {g : Byte → Byte} (hxor : ∀ a b, g (a ^^^ b) = g a ^^^ g b)
    (hxtime : ∀ a, g (xtime a) = xtime (g a)) (n : Nat) (acc a b : Byte) :
    (mulIterations n ⟨g acc, g a, b⟩).acc = g (mulIterations n ⟨acc, a, b⟩).acc := by
  induction n generalizing acc a b with
  | zero => rfl
  | succ n ih =>
    simp only [mulIterations, mulIteration, ← hxtime]
    cases b.getLsbD 0 with
    | false => exact ih acc (xtime a) (b >>> 1)
    | true => simpa [hxor] using ih (acc ^^^ a) (xtime a) (b >>> 1)

theorem gfMul_map {g : Byte → Byte} (hxor : ∀ a b, g (a ^^^ b) = g a ^^^ g b)
    (hxtime : ∀ a, g (xtime a) = xtime (g a)) (a b : Byte) : gfMul (g a) b = g (gfMul a b) := by
  have hzero : g 0x00#8 = 0x00#8 := by simpa using hxor 0x00#8 0x00#8
  have h := mulIterations_map hxor hxtime mulIters 0x00#8 a b
  rwa [hzero] at h

theorem gfMul_xor_left (a a' b : Byte) : gfMul (a ^^^ a') b = gfMul a b ^^^ gfMul a' b :=
  mulIterations_xor mulIters 0x00#8 0x00#8 a a' b

theorem gfMul_xtime_left (a b : Byte) : gfMul (xtime a) b = xtime (gfMul a b) :=
  gfMul_map xtime_xor (fun _ => rfl) a b

/-- Two factors may be multiplied in, in either order. -/
theorem gfMul_right_comm (a b c : Byte) : gfMul (gfMul a b) c = gfMul (gfMul a c) b :=
  (gfMul_map (g := (gfMul · c)) (gfMul_xor_left · · c) (gfMul_xtime_left · c) a b).symm

theorem gfMul_one_left : ∀ b : Byte, gfMul 0x01#8 b = b := by
  decide +kernel

/-! ## The inverse table -/

/-- A byte has at most one inverse: where `j` and `k` are inverses of `i`, `k` is `i * j * k` and `j` is `i * k * j`. -/
theorem gfMul_eq_one_unique {i j k : Byte} (hj : gfMul i j = 0x01#8) (hk : gfMul i k = 0x01#8) : k = j :=
  calc k = gfMul (gfMul i j) k := by rw [hj, gfMul_one_left]
    _ = gfMul (gfMul i k) j := gfMul_right_comm i j k
    _ = j := by rw [hk, gfMul_one_left]

/-- The scan of the builder goes through the nonzero bytes (R106). -/
theorem mem_nonzeroBytes {j : Byte} : j ∈ nonzeroBytes ↔ j ≠ 0x00#8 := by
  simp only [nonzeroBytes, List.mem_map, List.mem_range'_1]
  constructor
  · rintro ⟨n, hn, rfl⟩
    bv_omega
  · intro hj
    exact ⟨j.toNat, by bv_omega, BitVec.ofNat_toNat 8 j⟩

theorem gfMul_zero_right (i : Byte) : gfMul i 0x00#8 = 0x00#8 := rfl

/-- The listing under R107 holds an inverse for every nonzero byte: the evidence that the scan finds one. -/
theorem invListing_gfMul : ∀ i : Byte, i ≠ 0x00#8 → (tableEntry invListing i).map (gfMul i) = some 0x01#8 := by
  decide +kernel

/-- `RomRead(i)` is an inverse of `i`, for every nonzero `i` (R43). -/
theorem romRead_gfMul {i : Byte} (hi : i ≠ 0x00#8) :
    ∃ j, romRead i = some j ∧ j ≠ 0x00#8 ∧ gfMul i j = 0x01#8 := by
  have nonzero_of_inverse : ∀ j, gfMul i j = 0x01#8 → j ≠ 0x00#8 := by
    rintro _ hmul rfl
    rw [gfMul_zero_right] at hmul
    exact absurd hmul (by decide)
  obtain ⟨l, -, hl⟩ := Option.map_eq_some_iff.mp (invListing_gfMul i hi)
  have hfound : (scanInverse i).isSome :=
    List.find?_isSome.mpr ⟨l, mem_nonzeroBytes.mpr (nonzero_of_inverse l hl), by simpa using hl⟩
  obtain ⟨j, hj⟩ := Option.isSome_iff_exists.mp hfound
  have hmul : gfMul i j = 0x01#8 := by simpa using List.find?_some hj
  exact ⟨j, (if_neg hi).trans hj, nonzero_of_inverse j hmul, hmul⟩

/-- Settles O17: the scan finds an inverse, and a second one would be equal to it. -/
theorem inverseExistsAndIsUnique : Obligations.InverseExistsAndIsUnique := by
  intro i hi
  obtain ⟨j, hrom, hj, hmul⟩ := romRead_gfMul hi
  exact ⟨j, hj, hrom, fun k => ⟨gfMul_eq_one_unique hmul, fun hk => hk ▸ hmul⟩⟩

/-! ## The stack -/

/-- Settles O21: full in the sense of R41, or not. -/
theorem pushPrimitive : Obligations.PushPrimitive := fun _ v =>
  ⟨fun hfull => State.push_of_full (State.isFull_iff.mpr hfull) v,
    fun hroom => State.push_of_not_full (State.isFull_eq_false_iff.mpr hroom) v⟩

/-- The two pops, each by its own rule. -/
theorem State.popTwo_eq {s : State} {d x y : Byte} {s₁ s₂ : State} (hx : s.popOr d = (x, s₁))
    (hy : s₁.popOr d = (y, s₂)) : s.popTwo d = (x, y, s₂) := by
  simp only [State.popTwo, hx, hy]

/-- Settles O22: each pop finds the top, or finds nothing. -/
theorem popOrPrimitive : Obligations.PopOrPrimitive := by
  intro s d
  refine ⟨fun low v h => State.popOr_concat h d, fun h => State.popOr_nil h d, fun x h => ?_, fun low y x h => ?_⟩
  · have first : s.popOr d = (x, s.setStack []) := State.popOr_concat h d
    exact State.popTwo_eq first (State.popOr_nil rfl d)
  · have first : s.popOr d = (x, s.setStack (low ++ [y])) := State.popOr_concat (by simp [h]) d
    exact State.popTwo_eq first (State.popOr_concat rfl d)

/-- Settles O32: the one `Push` of a binary operator finds room on a stack that fits, and puts one element in place of
the operands. -/
theorem binaryOperatorsNeverOverflow : Obligations.BinaryOperatorsNeverOverflow := by
  intro s t i hs hi h
  have hrun : s.status = .run := (exec_cases h).1
  rcases exec_binary_cases_of_fits hi hs h with ⟨-, rfl⟩ | ⟨low, removed, v, hsplit, hcount, rfl⟩
  · simp [Cause.status]
  · have hlen : s.stack.length = low.length + removed.length := by simp [hsplit]
    refine ⟨by simp [hrun], ?_⟩
    simp only [State.setStack_stack, List.length_append, List.length_singleton]
    omega

/-! ## A run of submitted command words -/

/-- Every instruction is an effect guarded by RUN (R155). -/
theorem exec_eq_whileRunning (i : Instr) : ∃ f, ∀ s, exec i s = s.whileRunning f := by
  rcases instr_kinds i with ⟨v, rfl⟩ | hop | rfl | rfl | rfl
  · exact ⟨_, exec_push_eq v⟩
  · obtain ⟨d, f, -, hx⟩ := exec_eq_binary hop
    exact ⟨_, hx⟩
  · exact ⟨_, exec_dump_eq⟩
  · exact ⟨_, exec_clr_eq⟩
  · exact ⟨_, exec_term_eq⟩

/-- While STATUS is RUN, an instruction has a next state (R155). -/
theorem exec_of_run {s : State} (hr : s.status = .run) (i : Instr) : ∃ t, exec i s = .next t := by
  obtain ⟨f, hx⟩ := exec_eq_whileRunning i
  exact ⟨f s, (hx s).trans (State.whileRunning_run hr f)⟩

theorem exec_of_stopped {s : State} (hr : s.status ≠ .run) (i : Instr) : exec i s = .fault (.stopped s.status) := by
  obtain ⟨f, hx⟩ := exec_eq_whileRunning i
  exact (hx s).trans (State.whileRunning_stopped hr f)

theorem applyCommand_of_next {s t : State} {cw : CmdWord} (h : exec (decode cw) s = .next t) :
    applyCommand s cw = t := by
  simp only [applyCommand, h]

theorem applyCommand_of_stopped {s : State} (hr : s.status ≠ .run) (cw : CmdWord) : applyCommand s cw = s := by
  simp only [applyCommand, exec_of_stopped hr]

/-- A word that a stopped idle core does not accept is over, without effect (R173, log 5). -/
theorem step_submitCommand_of_stopped {s : State} {cw : CmdWord} {more : List HostAction} (hr : s.status ≠ .run)
    (hl : s.line = []) (hi : s.input = .submitCommand cw :: more) : step s = .next (s.setInput more) := by
  rw [step, turn, hi]
  exact (State.workOr_idle hl _).trans (State.acceptIfRunning_stopped (s := s.setInput more) hr _)

/-- A word submitted to an idle core takes one step, which leaves what `applyCommand` does to the architectural state,
whether the core runs or not. -/
theorem step_submitCommand (s : State) (cw : CmdWord) (more : List HostAction) (c : Cursor) :
    ∃ c', step (s.fetched (.submitCommand cw :: more) [] c) = .next ((applyCommand s cw).fetched more [] c') := by
  by_cases hr : s.status = .run
  · obtain ⟨t, ht⟩ := exec_of_run hr (decode cw)
    refine ⟨c.afterCommand, ?_⟩
    rw [applyCommand_of_next ht]
    exact (stepRunsTheSubmittedWord (s.fetched (.submitCommand cw :: more) [] c) cw more hr rfl rfl).trans
      (exec_fetched ht more [] c.afterCommand)
  · refine ⟨c, ?_⟩
    rw [applyCommand_of_stopped hr]
    exact step_submitCommand_of_stopped (s := s.fetched (.submitCommand cw :: more) [] c) hr rfl rfl

/-- Words submitted to an idle core take a step each and fold `applyCommand` (R50). -/
theorem run_submitCommands (cws : List CmdWord) (s : State) (c : Cursor) :
    ∃ c', Host.Core.run core cws.length (s.fetched (cws.map .submitCommand) [] c) =
      .next ((runCommands s cws).fetched [] [] c') := by
  induction cws generalizing s c with
  | nil => exact ⟨c, rfl⟩
  | cons cw cws ih =>
    obtain ⟨c₁, hstep⟩ := step_submitCommand s cw (cws.map .submitCommand) c
    obtain ⟨c₂, hrest⟩ := ih (applyCommand s cw) c₁
    exact ⟨c₂, (run_of_step ((core_step _).trans hstep) cws.length).trans hrest⟩

/-- Settles O53: by induction on the words, over the idle states that differ from the fold in cursor and input only. -/
theorem submittedWordsFoldTheStep : Obligations.SubmittedWordsFoldTheStep := by
  intro s cws hl
  obtain ⟨c, hrun⟩ := run_submitCommands cws s s.cursor
  have hstart : { s with input := cws.map .submitCommand } = s.fetched (cws.map .submitCommand) [] s.cursor := by
    rw [← hl]
    rfl
  exact ⟨(runCommands s cws).fetched [] [] c, by rw [hstart, hrun], rfl, rfl, rfl⟩

end Sys2Proof.Machine

namespace Sys2Proof

/-! ## Command words: `op` alone selects the instruction -/

/-- A word is its two fields (R69). -/
theorem packWord_fields (cw : CmdWord) : packWord (opField cw) (immField cw) = cw := by
  have h : cw.extractLsb' 8 4 ++ cw.extractLsb' 0 8 = cw.extractLsb' 0 12 :=
    BitVec.extractLsb'_append_extractLsb'_eq_extractLsb' rfl
  exact h.trans BitVec.extractLsb'_eq_self

theorem packWord_getLsbD_11 (op : BitVec 4) (imm8 : Byte) : (packWord op imm8).getLsbD 11 = op.getLsbD 3 :=
  BitVec.getLsbD_append

@[simp] theorem decode_packWord_zero (imm8 : Byte) : decode (packWord 0x0#4 imm8) = .push imm8 := by
  simp [decode]

/-- Every instruction but PUSH ignores `imm8` (R71, R72). -/
theorem decode_packWord_of_ne_zero {op : BitVec 4} (hop : op ≠ 0x0#4) (imm8 : Byte) :
    decode (packWord op imm8) = decode (packWord op 0x00#8) := by
  have hop' : op.toNat ≠ 0 := by bv_omega
  simp only [decode, opField_packWord]
  split
  · contradiction
  all_goals rfl

/-- PUSH is exactly `op` 0 (R70). -/
theorem decode_eq_push_iff (cw : CmdWord) : (∃ v, decode cw = .push v) ↔ opField cw = 0x0#4 := by
  constructor
  · rintro ⟨v, hv⟩
    by_contra hop
    have hop' : (opField cw).toNat ≠ 0 := by bv_omega
    simp only [decode] at hv
    split at hv
    · contradiction
    all_goals cases hv
  · intro hop
    exact ⟨immField cw, by rw [← packWord_fields cw, hop, decode_packWord_zero, immField_packWord]⟩

theorem packWord_and (op op' : BitVec 4) (imm8 imm8' : Byte) :
    packWord op imm8 &&& packWord op' imm8' = packWord (op &&& op') (imm8 &&& imm8') :=
  BitVec.and_append

/-- Every mask of the table under R70 lies within `op`. -/
theorem row_mask_eq_packWord (i : Instr) : i.row.mask = packWord (opField i.row.mask) 0x00#8 := by
  cases i <;> simp only [Instr.row] <;> decide

theorem selects_packWord (i : Instr) (op : BitVec 4) (imm8 : Byte) :
    i.row.selects (packWord op imm8) = i.row.selects (packWord op 0x00#8) := by
  simp only [OpcodeRow.selects]
  rw [row_mask_eq_packWord i, packWord_and, packWord_and, BitVec.and_zero, BitVec.and_zero]

/-- The rows that select a word are the row of the instruction it decodes to: R70 is total and unambiguous. -/
theorem selects_iff_row_eq (i : Instr) (cw : CmdWord) : i.row.selects cw = true ↔ i.row = (decode cw).row := by
  have hrow : (decode cw).row = (decode (packWord (opField cw) 0x00#8)).row := by
    rw [← packWord_fields cw]
    by_cases hop : opField cw = 0x0#4
    · simp [hop, Instr.row]
    · rw [decode_packWord_of_ne_zero hop, opField_packWord]
  rw [hrow, ← packWord_fields cw, selects_packWord, opField_packWord]
  generalize opField cw = op
  revert op
  cases i with
  | push v =>
    change ∀ op, (Instr.push 0x00#8).row.selects _ = true ↔ (Instr.push 0x00#8).row = _
    decide
  | _ => decide

/-- Bit 3 of `op`, the top bit of the word, is TERM (R72). -/
theorem getLsbD_11_iff_decode_term (cw : CmdWord) : cw.getLsbD 11 = true ↔ decode cw = .term := by
  rw [← packWord_fields cw, packWord_getLsbD_11]
  by_cases hop : opField cw = 0x0#4
  · simp [hop]
  · rw [decode_packWord_of_ne_zero hop]
    generalize opField cw = op
    revert op
    decide

/-- Settles O2, with `selects_iff_row_eq` and, for `imm8`, whether `op` is PUSH's. -/
theorem everyWordHasExactlyOneRow : Obligations.EveryWordHasExactlyOneRow := by
  intro cw
  rw [decode_eq_push_iff]
  refine ⟨packWord_fields cw, (selects_iff_row_eq _ cw).mpr rfl, fun i => (selects_iff_row_eq i cw).mp, ?_, ?_,
    getLsbD_11_iff_decode_term cw⟩
  · intro imm8 hop
    rw [hop, decode_packWord_zero]
  · intro imm8 hop
    calc decode (packWord (opField cw) imm8)
        = decode (packWord (opField cw) 0x00#8) := decode_packWord_of_ne_zero hop imm8
      _ = decode (packWord (opField cw) (immField cw)) := (decode_packWord_of_ne_zero hop _).symm
      _ = decode cw := by rw [packWord_fields]

/-! ## Encoding -/

@[simp] theorem decode_encode (i : Instr) : decode (encode i) = i := by
  cases i with
  | push imm8 => exact decode_packWord_zero imm8
  | _ => rfl

theorem encode_injective : Function.Injective encode :=
  Function.LeftInverse.injective decode_encode

/-- The ignored bits of a word at their canonical values (R71, R72). -/
theorem encode_decode_packWord (op : BitVec 4) (imm8 : Byte) :
    encode (decode (packWord op imm8)) =
      if op = 0x0#4 then packWord 0x0#4 imm8 else if op.toNat < 8 then packWord op 0x00#8 else 0xF00#12 := by
  by_cases hop : op = 0x0#4
  · subst hop
    rw [decode_packWord_zero]
    rfl
  · rw [decode_packWord_of_ne_zero hop, if_neg hop]
    revert op
    decide

/-- Settles O1. -/
theorem writtenWordsDecodeAsTabled : Obligations.WrittenWordsDecodeAsTabled := by
  unfold Obligations.WrittenWordsDecodeAsTabled
  decide

end Sys2Proof

namespace Sys2Proof.Machine

/-! ## Splitting a line by single spaces -/

theorem tokenWf_iff (t : Token) : tokenWf t = true ↔ chSpace ∉ t := by
  simp [tokenWf, List.all_eq_true, ← List.forall_mem_ne']

@[simp] theorem splitFrom_space (cur : Token) (rest : Line) :
    splitFrom cur (chSpace :: rest) = cur :: splitFrom [] rest := rfl

theorem splitFrom_of_ne_space {ch : Byte} (hch : ch ≠ chSpace) (cur : Token) (rest : Line) :
    splitFrom cur (ch :: rest) = splitFrom (cur ++ [ch]) rest := if_neg hch

/-- `n` spaces give `n + 1` tokens (R61). -/
theorem length_splitFrom (cur : Token) (line : Line) :
    (splitFrom cur line).length = line.count chSpace + 1 := by
  induction line generalizing cur with
  | nil => rfl
  | cons ch rest ih =>
    by_cases hch : ch = chSpace
    · simp [hch, ih]
    · rw [splitFrom_of_ne_space hch, ih, List.count_cons_of_ne hch]

theorem intercalate_splitFrom (cur : Token) (line : Line) :
    [chSpace].intercalate (splitFrom cur line) = cur ++ line := by
  induction line generalizing cur with
  | nil => simp [splitFrom]
  | cons ch rest ih =>
    by_cases hch : ch = chSpace
    · rw [hch, splitFrom_space, List.intercalate_cons_of_ne_nil (splitFrom_ne_nil [] rest), ih]
      simp
    · rw [splitFrom_of_ne_space hch, ih]
      simp

/-- Settles O5, by induction on the line with the token being read as the accumulator. -/
theorem splitIsBySingleSpaces : Obligations.SplitIsBySingleSpaces :=
  ⟨fun line => ⟨length_splitFrom [] line,
    fun t ht => (tokenWf_iff t).mp (splitFrom_tokenWf line (cur := []) rfl t ht),
    intercalate_splitFrom [] line⟩, rfl⟩

/-! ## Numerals in any base -/

/-- The number of a string of characters, each read by `digit`, most significant first; a character that is no digit
counts as 0. -/
def numeralValue (base : Nat) (digit : Byte → Option Nat) (t : Token) : Nat :=
  Nat.ofDigits base (t.map (fun ch => (digit ch).getD 0)).reverse

/-- The byte a number is, if it is at most 255 (R65, R66). -/
def byteOfNumber (n : Nat) : Option Byte := if 255 < n then none else some (BitVec.ofNat 8 n)

theorem byteOfNumber_eq_some_iff (n : Nat) (v : Byte) : byteOfNumber n = some v ↔ n = v.toNat := by
  unfold byteOfNumber
  split
  · simp only [reduceCtorEq, false_iff]
    bv_omega
  · simp only [Option.some.injEq]
    bv_omega

theorem byteOfNumber_eq_none_iff (n : Nat) : byteOfNumber n = none ↔ 255 < n := by
  simp [byteOfNumber]

theorem byteNumeral_of_ne_nil (base : Nat) (digit : Byte → Option Nat) {t : Token} (ht : t ≠ []) :
    byteNumeral base digit t = (numeralFrom base digit 0 t).bind byteOfNumber := by
  simp only [byteNumeral, if_neg ht]
  cases numeralFrom base digit 0 t <;> rfl

theorem numeralValue_cons {base : Nat} {digit : Byte → Option Nat} {ch : Byte} {d : Nat} (hd : digit ch = some d)
    (t : Token) : numeralValue base digit (ch :: t) = numeralValue base digit t + base ^ t.length * d := by
  simp only [numeralValue, List.map_cons, Nat.ofDigits_reverse_cons, hd, Option.getD_some, List.length_map]

/-- Reading on from `n`: all characters must be digits, and `n` counts with the place value of what precedes them. -/
theorem numeralFrom_eq_some_iff (base : Nat) (digit : Byte → Option Nat) (t : Token) (n m : Nat) :
    numeralFrom base digit n t = some m ↔
      (∀ ch ∈ t, (digit ch).isSome) ∧ numeralValue base digit t + base ^ t.length * n = m := by
  induction t generalizing n with
  | nil => simp [numeralFrom, numeralValue]
  | cons ch rest ih =>
    cases hd : digit ch with
    | none => simp [numeralFrom, hd]
    | some d =>
      have hplace : numeralValue base digit rest + base ^ rest.length * (n * base + d) =
          numeralValue base digit (ch :: rest) + base ^ (ch :: rest).length * n := by
        rw [numeralValue_cons hd, List.length_cons]
        ring
      rw [numeralFrom, hd, List.forall_mem_cons, ← hplace]
      simp [hd, ih]

/-- What a numeral of R65 or R66 is, and its value. -/
theorem byteNumeral_eq_some_iff (base : Nat) (digit : Byte → Option Nat) (t : Token) (v : Byte) :
    byteNumeral base digit t = some v ↔
      t ≠ [] ∧ (∀ ch ∈ t, (digit ch).isSome) ∧ numeralValue base digit t = v.toNat := by
  by_cases ht : t = []
  · simp [byteNumeral, ht]
  · simp [byteNumeral_of_ne_nil base digit ht, Option.bind_eq_some_iff, byteOfNumber_eq_some_iff,
      numeralFrom_eq_some_iff, ht]

/-! ## Decimal literals -/

theorem decDigit_isSome_iff (ch : Byte) : (decDigit ch).isSome ↔ 0x30 ≤ ch.toNat ∧ ch.toNat ≤ 0x39 := by
  simp [decDigit]

theorem decDigit_of_range {ch : Byte} (h : 0x30 ≤ ch.toNat ∧ ch.toNat ≤ 0x39) :
    decDigit ch = some (ch.toNat - 0x30) := if_pos h

theorem numeralValue_of_digits {base : Nat} {digit : Byte → Option Nat} {f : Byte → Nat} {t : Token}
    (h : ∀ ch ∈ t, digit ch = some (f ch)) : numeralValue base digit t = Nat.ofDigits base (t.map f).reverse := by
  rw [numeralValue, List.map_congr_left fun ch hch => by rw [h ch hch, Option.getD_some]]

theorem decLiteral_eq_some_iff (t : Token) (v : Byte) :
    decLiteral t = some v ↔
      t ≠ [] ∧ (∀ ch ∈ t, 0x30 ≤ ch.toNat ∧ ch.toNat ≤ 0x39) ∧
      Nat.ofDigits 10 (t.map (fun ch => ch.toNat - 0x30)).reverse = v.toNat := by
  simp only [decLiteral, byteNumeral_eq_some_iff, decDigit_isSome_iff]
  refine and_congr_right fun _ => and_congr_right fun hdigits => ?_
  rw [numeralValue_of_digits fun ch hch => decDigit_of_range (hdigits ch hch)]

/-- Settles O8: a leading zero leaves the number read so far at 0. -/
theorem decimalLiteralSyntax : Obligations.DecimalLiteralSyntax :=
  ⟨decLiteral_eq_some_iff, fun t ht => by
    rw [decLiteral, decLiteral, byteNumeral_of_ne_nil 10 decDigit ht, byteNumeral_of_ne_nil 10 decDigit (by simp)]
    rfl⟩

/-! ## Hexadecimal literals -/

theorem hexDigit_eq_some_iff (ch : Byte) (d : Nat) : hexDigit ch = some d ↔
    (d < 10 ∧ ch.toNat = 0x30 + d) ∨ (10 ≤ d ∧ d < 16 ∧ (ch.toNat = 0x61 + (d - 10) ∨ ch.toNat = 0x41 + (d - 10))) := by
  unfold hexDigit
  split_ifs <;> simp only [Option.some.injEq, false_iff] <;> omega

theorem stripHexMark_of_not_prefix {t : Token} (h : ¬ [chZero, chLowerX] <+: t) : stripHexMark t = t := by
  unfold stripHexMark
  split
  · rw [if_neg]
    rintro ⟨rfl, rfl⟩
    simp at h
  · rfl

/-- Settles O9. -/
theorem hexadecimalLiteralSyntax : Obligations.HexadecimalLiteralSyntax :=
  ⟨fun t v => byteNumeral_eq_some_iff 16 hexDigit (stripHexMark t) v, fun _ => rfl,
    fun _ => stripHexMark_of_not_prefix, hexDigit_eq_some_iff⟩

/-! ## The token classes -/

/-- The operator tokens with their instructions (R63). -/
def operatorTokens : List (Token × Instr) :=
  [([chPlus], .add), ([chCaret], .xor), ([chMinus], .sub), ([chStar], .mul), ([chSlash], .div)]

/-- The directive tokens with their instructions (R64). -/
def directiveTokens : List (Token × Instr) :=
  [([chUnderscore, chLowerD], .dump), ([chUnderscore, chLowerC], .clr)]

theorem operatorToken_eq_some_iff (t : Token) (i : Instr) : operatorToken t = some i ↔ (t, i) ∈ operatorTokens := by
  constructor
  · intro h
    unfold operatorToken at h
    split_ifs at h with ht ht ht ht ht <;> cases h <;> subst ht <;> decide
  · have hall : ∀ p ∈ operatorTokens, operatorToken p.1 = some p.2 := by decide
    exact hall (t, i)

theorem directiveToken_eq_some_iff (t : Token) (i : Instr) :
    directiveToken t = some i ↔ (t, i) ∈ directiveTokens := by
  constructor
  · intro h
    unfold directiveToken at h
    split_ifs at h with ht ht <;> cases h <;> subst ht <;> decide
  · have hall : ∀ p ∈ directiveTokens, directiveToken p.1 = some p.2 := by decide
    exact hall (t, i)

/-- A token that has an instruction of its own. -/
def IsCommandToken (t : Token) (i : Instr) : Prop := operatorToken t = some i ∨ directiveToken t = some i

theorem isCommandToken_iff_mem (t : Token) (i : Instr) :
    IsCommandToken t i ↔ (t, i) ∈ operatorTokens ++ directiveTokens := by
  rw [IsCommandToken, operatorToken_eq_some_iff, directiveToken_eq_some_iff, List.mem_append]

theorem IsCommandToken.ne_term {t : Token} {i : Instr} (h : IsCommandToken t i) : i ≠ .term := by
  have hall : ∀ p ∈ operatorTokens ++ directiveTokens, p.2 ≠ .term := by decide
  exact hall (t, i) ((isCommandToken_iff_mem t i).mp h)

/-- Each operator and each directive begins with a character that no literal has. -/
theorem IsCommandToken.exists_symbol {t : Token} {i : Instr} (h : IsCommandToken t i) :
    ∃ ch ∈ t, hexDigit ch = none ∧ ch ≠ chLowerX := by
  have hall : ∀ p ∈ operatorTokens ++ directiveTokens, ∃ ch ∈ p.1, hexDigit ch = none ∧ ch ≠ chLowerX := by decide
  exact hall (t, i) ((isCommandToken_iff_mem t i).mp h)

/-- Operators and directives hold characters of the table under R60 only. -/
theorem IsCommandToken.chars {t : Token} {i : Instr} (h : IsCommandToken t i) :
    ∀ ch ∈ t, ch ∈ [chPlus, chCaret, chMinus, chStar, chSlash, chUnderscore] ∨ (hexDigit ch).isSome := by
  have hall : ∀ p ∈ operatorTokens ++ directiveTokens, ∀ ch ∈ p.1,
      ch ∈ [chPlus, chCaret, chMinus, chStar, chSlash, chUnderscore] ∨ (hexDigit ch).isSome := by decide
  exact hall (t, i) ((isCommandToken_iff_mem t i).mp h)

theorem literal_eq_some_iff (t : Token) (v : Byte) :
    literal t = some v ↔ decLiteral t = some v ∨ (decLiteral t = none ∧ hexLiteral t = some v) := by
  unfold literal
  cases decLiteral t <;> simp

theorem hexDigit_of_range {ch : Byte} (h : 0x30 ≤ ch.toNat ∧ ch.toNat ≤ 0x39) :
    hexDigit ch = some (ch.toNat - 0x30) := if_pos h

theorem stripHexMark_cases (t : Token) : t = chZero :: chLowerX :: stripHexMark t ∨ stripHexMark t = t := by
  by_cases h : [chZero, chLowerX] <+: t
  · obtain ⟨rest, rfl⟩ := h
    exact .inl rfl
  · exact .inr (stripHexMark_of_not_prefix h)

/-- A literal consists of hexadecimal digits and the `x` of its mark. -/
theorem literal_chars {t : Token} {v : Byte} (h : literal t = some v) :
    ∀ ch ∈ t, (hexDigit ch).isSome ∨ ch = chLowerX := by
  rcases (literal_eq_some_iff t v).mp h with hdec | ⟨-, hhex⟩
  · obtain ⟨-, hdigits, -⟩ := (decLiteral_eq_some_iff t v).mp hdec
    exact fun ch hch => .inl (by rw [hexDigit_of_range (hdigits ch hch)]; rfl)
  · obtain ⟨-, hdigits, -⟩ := (byteNumeral_eq_some_iff 16 hexDigit (stripHexMark t) v).mp hhex
    rcases stripHexMark_cases t with ht | ht
    · rw [ht]
      exact List.forall_mem_cons.mpr ⟨.inl rfl, List.forall_mem_cons.mpr ⟨.inr rfl, fun ch hch => .inl (hdigits ch hch)⟩⟩
    · exact fun ch hch => .inl (hdigits ch (by rwa [ht]))

theorem literal_eq_none_of_mem {t : Token} {ch : Byte} (hch : ch ∈ t) (hdigit : hexDigit ch = none)
    (hx : ch ≠ chLowerX) : literal t = none := by
  refine Option.eq_none_iff_forall_ne_some.mpr fun v hv => ?_
  simpa [hdigit, hx] using literal_chars hv ch hch

/-- Operators and directives are no literals (R62). -/
theorem IsCommandToken.literal_eq_none {t : Token} {i : Instr} (h : IsCommandToken t i) : literal t = none := by
  obtain ⟨ch, hch, hdigit, hx⟩ := h.exists_symbol
  exact literal_eq_none_of_mem hch hdigit hx

/-- Operators are no directives: their lengths differ (R62). -/
theorem directiveToken_of_operator {t : Token} {i : Instr} (h : operatorToken t = some i) :
    directiveToken t = none := by
  have hall : ∀ p ∈ operatorTokens, directiveToken p.1 = none := by decide
  exact hall (t, i) ((operatorToken_eq_some_iff t i).mp h)

/-! ## The word of each class -/

theorem classify_of_command {t : Token} {i : Instr} (h : IsCommandToken t i) : classify t = encode i := by
  rcases h with hop | hdir
  · simp [classify, hop]
  · have hop : operatorToken t = none := Option.eq_none_iff_forall_ne_some.mpr fun j hj => by
      simp [directiveToken_of_operator hj] at hdir
    simp [classify, hop, hdir]

theorem not_isCommandToken_iff (t : Token) :
    (∀ i, ¬ IsCommandToken t i) ↔ operatorToken t = none ∧ directiveToken t = none := by
  simp [IsCommandToken, Option.eq_none_iff_forall_ne_some, forall_and]

theorem classify_of_literal {t : Token} {v : Byte} (h : literal t = some v) : classify t = encode (.push v) := by
  have hnot : ∀ i, ¬ IsCommandToken t i := fun i hi => by simp [hi.literal_eq_none] at h
  obtain ⟨hop, hdir⟩ := (not_isCommandToken_iff t).mp hnot
  simp [classify, hop, hdir, h]

theorem classify_of_none {t : Token} (hcmd : ∀ i, ¬ IsCommandToken t i) (hlit : literal t = none) :
    classify t = encode .term := by
  obtain ⟨hop, hdir⟩ := (not_isCommandToken_iff t).mp hcmd
  simp [classify, hop, hdir, hlit]

/-- What a token can be (R62, R73). -/
theorem classify_cases (t : Token) :
    (∃ i, IsCommandToken t i ∧ classify t = encode i) ∨
    (∃ v, literal t = some v ∧ classify t = encode (.push v)) ∨
    ((∀ i, ¬ IsCommandToken t i) ∧ literal t = none ∧ classify t = encode .term) := by
  by_cases hcmd : ∃ i, IsCommandToken t i
  · obtain ⟨i, hi⟩ := hcmd
    exact .inl ⟨i, hi, classify_of_command hi⟩
  · have hcmd' : ∀ i, ¬ IsCommandToken t i := not_exists.mp hcmd
    cases hlit : literal t with
    | some v => exact .inr (.inl ⟨v, rfl, classify_of_literal hlit⟩)
    | none => exact .inr (.inr ⟨hcmd', rfl, classify_of_none hcmd' hlit⟩)

theorem classify_eq_term_iff (t : Token) :
    classify t = encode .term ↔ (∀ i, ¬ IsCommandToken t i) ∧ literal t = none := by
  refine ⟨fun hterm => ?_, fun ⟨hcmd, hlit⟩ => classify_of_none hcmd hlit⟩
  rcases classify_cases t with ⟨i, hi, hword⟩ | ⟨v, -, hword⟩ | ⟨hcmd, hlit, -⟩
  · exact absurd (encode_injective (hword.symm.trans hterm)) hi.ne_term
  · exact nomatch encode_injective (hword.symm.trans hterm)
  · exact ⟨hcmd, hlit⟩

/-- Settles O6. -/
theorem operatorAndDirectiveTokens : Obligations.OperatorAndDirectiveTokens :=
  ⟨operatorToken_eq_some_iff, directiveToken_eq_some_iff,
    fun _ i h => (congrArg decode (classify_of_command h)).trans (decode_encode i)⟩

/-- A character that the grammar does not name makes its token a terminating one (R68). -/
theorem classify_of_foreign_char {t : Token} {ch : Byte} (hch : ch ∈ t)
    (hsym : ch ∉ [chPlus, chCaret, chMinus, chStar, chSlash, chUnderscore, chLowerX]) (hdigit : hexDigit ch = none) :
    classify t = encode .term := by
  refine classify_of_none (fun i hi => ?_) (literal_eq_none_of_mem hch hdigit fun hx => hsym (by simp [hx]))
  rcases hi.chars ch hch with hmem | hsome
  · exact hsym (List.mem_append_left [chLowerX] hmem)
  · simp [hdigit] at hsome

/-- Settles O7. -/
theorem tokenClassesAreDisjoint : Obligations.TokenClassesAreDisjoint := by
  refine ⟨fun t => ⟨fun hop => ?_, fun hdir => ?_, ?_, fun ch => classify_of_foreign_char⟩, rfl⟩
  · obtain ⟨i, hi⟩ := Option.isSome_iff_exists.mp hop
    exact ⟨directiveToken_of_operator hi, IsCommandToken.literal_eq_none (.inl hi)⟩
  · obtain ⟨i, hi⟩ := Option.isSome_iff_exists.mp hdir
    exact IsCommandToken.literal_eq_none (.inr hi)
  · rw [← and_assoc, ← not_isCommandToken_iff]
    exact classify_eq_term_iff t

/-- Settles O4: whatever class a token is in, its word is an instruction's canonical word. -/
theorem tokenizerProducesCanonicalWords : Obligations.TokenizerProducesCanonicalWords := by
  refine ⟨encode_decode_packWord, fun t => ?_⟩
  have hcanonical : ∃ i, classify t = encode i := by
    rcases classify_cases t with ⟨i, -, hword⟩ | ⟨v, -, hword⟩ | ⟨-, -, hword⟩
    exacts [⟨i, hword⟩, ⟨.push v, hword⟩, ⟨.term, hword⟩]
  obtain ⟨i, hword⟩ := hcanonical
  rw [hword, decode_encode]

/-- Digits that are above 255 in base 10 are so in base 16, so no decimal digits above 255 are a literal (R67). -/
theorem literal_of_large_number {t : Token} (hdigits : ∀ ch ∈ t, 0x30 ≤ ch.toNat ∧ ch.toNat ≤ 0x39)
    (hlarge : 255 < Nat.ofDigits 10 (t.map (fun ch => ch.toNat - 0x30)).reverse) : literal t = none := by
  refine Option.eq_none_iff_forall_ne_some.mpr fun v hv => ?_
  rcases (literal_eq_some_iff t v).mp hv with hdec | ⟨-, hhex⟩
  · obtain ⟨-, -, hvalue⟩ := (decLiteral_eq_some_iff t v).mp hdec
    bv_omega
  · have hnomark : stripHexMark t = t := stripHexMark_of_not_prefix fun hmark =>
      absurd (hdigits chLowerX (hmark.subset (by simp))) (by decide)
    obtain ⟨-, -, hvalue⟩ := (byteNumeral_eq_some_iff 16 hexDigit (stripHexMark t) v).mp hhex
    rw [hnomark, numeralValue_of_digits fun ch hch => hexDigit_of_range (hdigits ch hch)] at hvalue
    have hbase := Nat.ofDigits_monotone (t.map (fun ch => ch.toNat - 0x30)).reverse (show 10 ≤ 16 by decide)
    bv_omega

/-- Settles O10. -/
theorem literalIsDecimalThenHexadecimal : Obligations.LiteralIsDecimalThenHexadecimal := by
  refine fun t => ⟨literal_eq_some_iff t, fun hdigits hlarge => ?_⟩
  have hlit := literal_of_large_number hdigits hlarge
  refine ⟨hlit, classify_of_none (fun i hi => ?_) hlit⟩
  obtain ⟨ch, hch, hnone, -⟩ := hi.exists_symbol
  simp [hexDigit_of_range (hdigits ch hch)] at hnone

/-! ## The canonical token -/

theorem decDigit_decChar {d : Nat} (hd : d < 10) : decDigit (decChar d) = some d := by
  have hchar : (decChar d).toNat = 0x30 + d := by
    simp only [decChar, BitVec.toNat_ofNat]
    omega
  rw [decDigit_of_range (by omega), hchar, Nat.add_sub_cancel_left]

theorem numeralFrom_decChar {d : Nat} (hd : d < 10) (n : Nat) (t : Token) :
    numeralFrom 10 decDigit n (decChar d :: t) = numeralFrom 10 decDigit (n * 10 + d) t := by
  rw [numeralFrom, decDigit_decChar hd]

/-- The numeral of a byte, of one, two or three digits, spells its number (R137). -/
theorem numeralFrom_decimalNumeral (v : Byte) : numeralFrom 10 decDigit 0 (decimalNumeral v) = some v.toNat := by
  have hv := v.isLt
  unfold decimalNumeral
  split_ifs
  · rw [numeralFrom_decChar (by omega), numeralFrom]
    simp
  · rw [numeralFrom_decChar (by omega), numeralFrom_decChar (by omega), numeralFrom, Option.some.injEq]
    omega
  · rw [numeralFrom_decChar (by omega), numeralFrom_decChar (by omega), numeralFrom_decChar (by omega), numeralFrom,
      Option.some.injEq]
    omega

theorem decimalNumeral_ne_nil (v : Byte) : decimalNumeral v ≠ [] := by
  unfold decimalNumeral
  split_ifs <;> simp

theorem literal_decimalNumeral (v : Byte) : literal (decimalNumeral v) = some v := by
  refine (literal_eq_some_iff _ v).mpr (.inl ?_)
  rw [decLiteral, byteNumeral_of_ne_nil 10 decDigit (decimalNumeral_ne_nil v), numeralFrom_decimalNumeral]
  exact (byteOfNumber_eq_some_iff v.toNat v).mpr rfl

/-- The canonical token of PUSH is a literal, the other seven are command tokens (R75). -/
theorem canonicalToken_cases {i : Instr} {t : Token} (h : canonicalToken i = some t) :
    IsCommandToken t i ∨ ∃ v, i = .push v ∧ literal t = some v := by
  cases i with
  | push v =>
    obtain rfl : decimalNumeral v = t := Option.some.inj h
    exact .inr ⟨v, rfl, literal_decimalNumeral v⟩
  | term => cases h
  | _ =>
    obtain rfl := Option.some.inj h
    exact .inl ((isCommandToken_iff_mem _ _).mpr (by decide))

theorem canonicalToken_eq_none_iff (i : Instr) : canonicalToken i = none ↔ i = .term := by
  cases i <;> simp [canonicalToken]

theorem IsCommandToken.no_space {t : Token} {i : Instr} (h : IsCommandToken t i) : tokenWf t = true := by
  have hall : ∀ p ∈ operatorTokens ++ directiveTokens, tokenWf p.1 = true := by decide
  exact hall (t, i) ((isCommandToken_iff_mem t i).mp h)

theorem tokenWf_of_literal {t : Token} {v : Byte} (h : literal t = some v) : tokenWf t = true := by
  rw [tokenWf_iff]
  intro hspace
  exact absurd (literal_chars h chSpace hspace) (by decide)

/-- The canonical token of an instruction is a token of a line and has the instruction's canonical word (R75). -/
theorem classify_canonicalToken {i : Instr} {t : Token} (h : canonicalToken i = some t) :
    classify t = encode i ∧ tokenWf t = true := by
  rcases canonicalToken_cases h with hcmd | ⟨v, rfl, hlit⟩
  · exact ⟨classify_of_command hcmd, hcmd.no_space⟩
  · exact ⟨classify_of_literal hlit, tokenWf_of_literal hlit⟩

/-- Settles O3, by the class of the canonical token. -/
theorem instructionsRoundTripThroughWordAndText : Obligations.InstructionsRoundTripThroughWordAndText := by
  refine fun i _ => ⟨decode_encode i, fun t ht => ?_, canonicalToken_eq_none_iff i⟩
  obtain ⟨hword, hwf⟩ := classify_canonicalToken ht
  exact ⟨hword, (congrArg decode hword).trans (decode_encode i), hwf⟩

/-! ## The streaming recogniser -/

/-- A mark of the accumulator that rules a numeral out, whatever follows. -/
def Accum.dead (r : Accum) : Bool := r.exceeded || r.sawOther

/-- The accumulator that has counted digits only, their number being `n` (at most 255). -/
def Accum.reading (n : Nat) : Accum := ⟨BitVec.ofNat 8 n, false, false, true⟩

theorem accumulate_dead (base : Nat) (digit : Byte → Option Nat) {r : Accum} (hr : r.dead = true) (ch : Byte) :
    (accumulate base digit r ch).dead = true := by
  unfold accumulate
  cases digit ch with
  | none => simp [Accum.dead]
  | some d =>
    simp only [Accum.dead, Bool.or_eq_true] at hr ⊢
    exact hr.imp_left .inl

theorem accumResult_foldl_dead (base : Nat) (digit : Byte → Option Nat) (t : Token) {r : Accum}
    (hr : r.dead = true) : accumResult (t.foldl (accumulate base digit) r) = none := by
  induction t generalizing r with
  | nil =>
    simp only [Accum.dead, Bool.or_eq_true] at hr
    rcases hr with h | h <;> simp [accumResult, h]
  | cons ch rest ih => exact ih (accumulate_dead base digit hr ch)

/-- A number only grows as digits follow. -/
theorem le_of_numeralFrom {base : Nat} (hbase : 0 < base) {digit : Byte → Option Nat} {t : Token} {n m : Nat}
    (h : numeralFrom base digit n t = some m) : n ≤ m := by
  obtain ⟨-, rfl⟩ := (numeralFrom_eq_some_iff base digit t n m).mp h
  exact le_add_left (Nat.le_mul_of_pos_left n (Nat.pow_pos hbase))

theorem numeralFrom_bind_of_large {base : Nat} (hbase : 0 < base) (digit : Byte → Option Nat) (t : Token) {n : Nat}
    (hn : 255 < n) : (numeralFrom base digit n t).bind byteOfNumber = none := by
  cases h : numeralFrom base digit n t with
  | none => rfl
  | some m => exact (byteOfNumber_eq_none_iff m).mpr (hn.trans_le (le_of_numeralFrom hbase h))

theorem accumulate_reading_digit {base : Nat} {digit : Byte → Option Nat} {ch : Byte} {d : Nat}
    (hd : digit ch = some d) {n : Nat} (hn : n ≤ 255) :
    accumulate base digit (.reading n) ch =
      { Accum.reading (n * base + d) with exceeded := decide (255 < n * base + d) } := by
  have hvalue : (BitVec.ofNat 8 n).toNat = n := by
    rw [BitVec.toNat_ofNat]
    omega
  simp [accumulate, hd, Accum.reading, hvalue]

/-- Eight bits of value and two sticky marks are enough to read a number of any length (R67). -/
theorem accumResult_foldl_reading {base : Nat} (hbase : 0 < base) (digit : Byte → Option Nat) (t : Token) {n : Nat}
    (hn : n ≤ 255) : accumResult (t.foldl (accumulate base digit) (.reading n)) =
      (numeralFrom base digit n t).bind byteOfNumber := by
  induction t generalizing n with
  | nil => simp [accumResult, Accum.reading, numeralFrom, byteOfNumber, hn]
  | cons ch rest ih =>
    rw [List.foldl_cons, numeralFrom]
    cases hd : digit ch with
    | none => exact accumResult_foldl_dead base digit rest (by simp [accumulate, hd, Accum.dead])
    | some d =>
      rw [accumulate_reading_digit hd hn]
      by_cases hlarge : 255 < n * base + d
      · rw [accumResult_foldl_dead base digit rest (by simp [Accum.dead, hlarge])]
        exact (numeralFrom_bind_of_large hbase digit rest hlarge).symm
      · simp only [hlarge, decide_false]
        exact ih (not_lt.mp hlarge)

/-- An accumulator reads what `byteNumeral` says (R65, R66). -/
theorem accumResult_foldl_emptyAccum {base : Nat} (hbase : 0 < base) (digit : Byte → Option Nat) (t : Token) :
    accumResult (t.foldl (accumulate base digit) emptyAccum) = byteNumeral base digit t := by
  cases t with
  | nil => rfl
  | cons ch rest =>
    have hfirst : accumulate base digit emptyAccum ch = accumulate base digit (.reading 0) ch := by
      unfold accumulate
      cases digit ch <;> rfl
    rw [byteNumeral_of_ne_nil base digit (by simp), List.foldl_cons, hfirst, ← List.foldl_cons]
    exact accumResult_foldl_reading hbase digit (ch :: rest) (Nat.zero_le 255)

/-- The registers at the start of a token. -/
def LitRegs.start : LitRegs := ⟨emptyAccum, emptyAccum, .start⟩

theorem foldl_literalStep_dec (t : Token) (r : LitRegs) :
    (t.foldl literalStep r).dec = t.foldl (accumulate 10 decDigit) r.dec := by
  induction t generalizing r with
  | nil => rfl
  | cons ch rest ih => exact ih (literalStep r ch)

/-- Once no mark can follow, the hexadecimal accumulator takes every character. -/
theorem foldl_literalStep_hex_of_past (t : Token) {r : LitRegs} (hr : r.mark = .past) :
    (t.foldl literalStep r).hex = t.foldl (accumulate 16 hexDigit) r.hex := by
  induction t generalizing r with
  | nil => rfl
  | cons ch rest ih =>
    have hhex : (literalStep r ch).hex = accumulate 16 hexDigit r.hex ch := by simp [literalStep, hr]
    have hmark : (literalStep r ch).mark = .past := by simp [literalStep, hr]
    rw [List.foldl_cons, ih hmark, hhex, List.foldl_cons]

/-- After two characters, the hexadecimal accumulator is empty again exactly if they were the mark. -/
theorem literalStep_second (c0 c1 : Byte) :
    (literalStep (literalStep .start c0) c1).mark = .past ∧
    (literalStep (literalStep .start c0) c1).hex =
      if c0 = chZero ∧ c1 = chLowerX then emptyAccum
      else accumulate 16 hexDigit (accumulate 16 hexDigit emptyAccum c0) c1 := by
  by_cases h0 : c0 = chZero <;> simp [literalStep, LitRegs.start, h0]

/-- The hexadecimal accumulator has read the token without its mark (R66, R67). -/
theorem foldl_literalStep_hex (t : Token) :
    (t.foldl literalStep .start).hex = (stripHexMark t).foldl (accumulate 16 hexDigit) emptyAccum := by
  match t with
  | [] => rfl
  | [_] => rfl
  | c0 :: c1 :: rest =>
    obtain ⟨hmark, hhex⟩ := literalStep_second c0 c1
    rw [List.foldl_cons, List.foldl_cons, foldl_literalStep_hex_of_past rest hmark, hhex, stripHexMark]
    split <;> rfl

/-- Settles O11: one accumulator reads `decLiteral`, the other `hexLiteral`. -/
theorem streamingRecogniserReadsLiterals : Obligations.StreamingRecogniserReadsLiterals := by
  intro t
  have hdec : accumResult (t.foldl literalStep .start).dec = decLiteral t := by
    rw [foldl_literalStep_dec]
    exact accumResult_foldl_emptyAccum (by decide) decDigit t
  have hhex : accumResult (t.foldl literalStep .start).hex = hexLiteral t := by
    rw [foldl_literalStep_hex]
    exact accumResult_foldl_emptyAccum (by decide) hexDigit (stripHexMark t)
  rw [literal, ← hdec, ← hhex]
  rfl

end Sys2Proof.Machine

namespace Sys2Proof.Machine

/-! ## Exclusive or -/

/-- Settles O12: `gfAdd` is `^^^`, whose laws are the library's. -/
theorem fieldAdditionIsBitwiseXor : Obligations.FieldAdditionIsBitwiseXor :=
  ⟨fun a b c => ⟨fun k _ => BitVec.getLsbD_xor, BitVec.xor_comm a b, BitVec.xor_assoc a b c,
    BitVec.xor_self, BitVec.xor_zero⟩, by decide, by decide⟩

/-- An additive map goes through the exclusive or over the set bits, term by term. -/
theorem map_xorOverBits {v w : Nat} {f : BitVec v → BitVec w} (hxor : ∀ p q, f (p ^^^ q) = f p ^^^ f q)
    {term : Nat → BitVec v} {term' : Nat → BitVec w} (b : Byte) {n : Nat} (hterm : ∀ k < n, f (term k) = term' k) :
    f (xorOverBits term b n) = xorOverBits term' b n := by
  induction n with
  | zero =>
    have hzero : f 0#v = 0#w := by simpa using hxor 0#v 0#v
    exact hzero
  | succ n ih =>
    have hlow : f (xorOverBits term b n) = xorOverBits term' b n := ih fun k hk => hterm k (by omega)
    simp only [xorOverBits]
    cases b.getLsbD n with
    | false => exact hlow
    | true => simp [hxor, hlow, hterm n (Nat.lt_succ_self n)]

/-! ## The multiplier's registers, and its closed form -/

/-- The last iteration of the multiplier, where its recursion shows the first. -/
theorem mulIterations_succ_last (n : Nat) (r : MulRegs) :
    mulIterations (n + 1) r = mulIteration (mulIterations n r) := by
  induction n generalizing r with
  | zero => rfl
  | succ n ih => exact ih (mulIteration r)

/-- The working registers after `n` iterations from 0x00: the partial sum of the closed form, `xtime^n` of the
multiplicand, and the multiplier without its `n` low bits (R92, R93). -/
theorem mulIterations_eq (n : Nat) (a b : Byte) :
    mulIterations n ⟨0x00#8, a, b⟩ = ⟨xorOverBits (fun k => xtimeIter k a) b n, xtimeIter n a, b >>> n⟩ := by
  induction n with
  | zero => rfl
  | succ n ih =>
    rw [mulIterations_succ_last, ih]
    simp [mulIteration, xorOverBits, xtimeIter, BitVec.shiftRight_add]

/-- Settles O14: the accumulator after 8 iterations. -/
theorem multiplierClosedForm : Obligations.MultiplierClosedForm := fun a b =>
  congrArg MulRegs.acc (mulIterations_eq mulIters a b)

/-! ## The remainder modulo the polynomial -/

/-- To add `m` under the exclusive or of two conditions is to add it under each of them: twice is not at all. -/
theorem ite_xor_xor {w : Nat} (x y : Bool) (p q m : BitVec w) :
    (if x ^^ y then p ^^^ q ^^^ m else p ^^^ q) = (if x then p ^^^ m else p) ^^^ (if y then q ^^^ m else q) := by
  cases x <;> cases y
  · rfl
  · exact BitVec.xor_assoc p q m
  · change p ^^^ q ^^^ m = p ^^^ m ^^^ q
    ac_rfl
  · calc p ^^^ q = p ^^^ q ^^^ (m ^^^ m) := by rw [BitVec.xor_self, BitVec.xor_zero]
      _ = p ^^^ m ^^^ (q ^^^ m) := by ac_rfl

theorem reduceFrom_xor (n : Nat) (p q : BitVec 16) : reduceFrom n (p ^^^ q) = reduceFrom n p ^^^ reduceFrom n q := by
  induction n generalizing p q with
  | zero => rfl
  | succ n ih => rw [reduceFrom, BitVec.getLsbD_xor, ite_xor_xor, ih, reduceFrom, reduceFrom]

theorem polyRemainder_xor (p q : BitVec 16) : polyRemainder (p ^^^ q) = polyRemainder p ^^^ polyRemainder q := by
  simp only [polyRemainder, reduceFrom_xor, BitVec.setWidth_xor]

/-- A polynomial of degree below 8 has no term to cancel. -/
theorem reduceFrom_zeroExtend (n : Nat) (a : Byte) : reduceFrom n (a.zeroExtend 16) = a.zeroExtend 16 := by
  induction n with
  | zero => rfl
  | succ n ih =>
    have hbit : (a.zeroExtend 16).getLsbD (n + 8) = false := by simp
    rw [reduceFrom, hbit]
    exact ih

theorem polyRemainder_zeroExtend (a : Byte) : polyRemainder (a.zeroExtend 16) = a := by
  rw [polyRemainder, reduceFrom_zeroExtend]
  exact BitVec.setWidth_setWidth_of_le a (by decide)

/-- Cancelling the terms of `p * x` is cancelling those of `p`, one position lower, and then the one at x^8. -/
theorem reduceFrom_shiftLeft_one {n : Nat} (hn : n ≤ 7) (p : BitVec 16) :
    reduceFrom (n + 1) (p <<< 1) = reduceFrom 1 (reduceFrom n p <<< 1) := by
  induction n generalizing p with
  | zero => rfl
  | succ n ih =>
    have hbit : (p <<< 1).getLsbD (n + 1 + 8) = p.getLsbD (n + 8) := by
      rw [BitVec.getLsbD_shiftLeft, Nat.add_right_comm, Nat.add_sub_cancel]
      simp [show n + 8 + 1 < 16 by omega]
    have hmultiple : p <<< 1 ^^^ 0x11B#16 <<< (n + 1) = (p ^^^ 0x11B#16 <<< n) <<< 1 := by
      rw [BitVec.shiftLeft_xor_distrib, BitVec.shiftLeft_add]
    rw [reduceFrom, hbit, hmultiple, ← apply_ite (fun q : BitVec 16 => q <<< 1)]
    exact ih (by omega) _

/-- The step of the multiplier is the one at x^8, in 8 bits. -/
theorem setWidth_reduceFrom_one (q : BitVec 16) : (reduceFrom 1 (q <<< 1)).setWidth 8 = xtime (q.setWidth 8) := by
  have hbit : (q <<< 1).getLsbD (0 + 8) = (q.setWidth 8).getLsbD 7 := by simp
  have hshift : (q <<< 1).setWidth 8 = q.setWidth 8 <<< 1 := BitVec.setWidth_shiftLeft_of_le (by decide)
  rw [reduceFrom, hbit, reduceFrom, xtime]
  cases (q.setWidth 8).getLsbD 7 with
  | false => exact hshift
  | true =>
    change (q <<< 1 ^^^ 0x11B#16).setWidth 8 = q.setWidth 8 <<< 1 ^^^ (0x11B#16).setWidth 8
    rw [BitVec.setWidth_xor, hshift]

/-- `xtime` is multiplication by x modulo the polynomial (R91). -/
theorem polyRemainder_shiftLeft_one {p : BitVec 16} (hp : p.getLsbD 15 = false) :
    polyRemainder (p <<< 1) = xtime (polyRemainder p) := by
  have htop : reduceFrom 8 p = reduceFrom 7 p := by rw [reduceFrom, hp]; rfl
  rw [polyRemainder, reduceFrom_shiftLeft_one le_rfl, setWidth_reduceFrom_one, ← htop, polyRemainder]

/-- `xtime^k` is multiplication by x^k modulo the polynomial. -/
theorem polyRemainder_shiftLeft (a : Byte) {k : Nat} (hk : k ≤ 8) :
    polyRemainder (a.zeroExtend 16 <<< k) = xtimeIter k a := by
  induction k with
  | zero => exact (congrArg polyRemainder (BitVec.shiftLeft_zero _)).trans (polyRemainder_zeroExtend a)
  | succ k ih =>
    have htop : (a.zeroExtend 16 <<< k).getLsbD 15 = false := by
      have hhigh : a.getLsbD (15 - k) = false := BitVec.getLsbD_of_ge a _ (by omega)
      simp [hhigh]
    rw [BitVec.shiftLeft_add, polyRemainder_shiftLeft_one htop, ih (by omega), xtimeIter]

/-- Settles O15: the remainder of the product is the sum of its partial products' remainders, which is the closed form. -/
theorem multiplierIsReducedPolynomialProduct : Obligations.MultiplierIsReducedPolynomialProduct := by
  intro a b
  rw [multiplierClosedForm]
  exact (map_xorOverBits polyRemainder_xor b fun k hk => polyRemainder_shiftLeft a (Nat.le_of_lt hk)).symm

/-! ## The two branches of `xtime` -/

theorem xtime_of_bit_clear {a : Byte} (h : a.getLsbD 7 = false) : xtime a = a <<< 1 := by
  rw [xtime, h]
  rfl

theorem xtime_of_bit_set {a : Byte} (h : a.getLsbD 7 = true) : xtime a = a <<< 1 ^^^ reductionConstant :=
  if_pos h

/-- Bit 7 is set from 0x80 on. -/
theorem getLsbD_seven (a : Byte) : a.getLsbD 7 = decide (128 ≤ a.toNat) :=
  a.msb_eq_decide

/-- Settles O13: the shift loses bit 7, and nothing where it is clear; the reduction is `polyRemainder_shiftLeft_one`. -/
theorem xtimeShiftsAndReduces : Obligations.XtimeShiftsAndReduces := by
  refine ⟨fun a => ⟨fun h => ?_, fun h => ?_, ?_⟩, by decide⟩
  · have hlt : ¬ 128 ≤ a.toNat := of_decide_eq_false (getLsbD_seven a ▸ h)
    rw [xtime_of_bit_clear h]
    bv_omega
  · have hge : 128 ≤ a.toNat := of_decide_eq_true (getLsbD_seven a ▸ h)
    rw [xtime_of_bit_set h]
    have hshift : a <<< 1 = BitVec.ofNat 8 (2 * a.toNat - 256) := by bv_omega
    rw [hshift]
  · have htop : (a.zeroExtend 16).getLsbD 15 = false := by simp
    rw [polyRemainder_shiftLeft_one htop, polyRemainder_zeroExtend]

/-! ## The laws of multiplication -/

theorem gfMul_comm (a b : Byte) : gfMul a b = gfMul b a := by
  simpa only [gfMul_one_left] using gfMul_right_comm 0x01#8 a b

theorem gfMul_one_right (a : Byte) : gfMul a 0x01#8 = a := by
  rw [gfMul_comm, gfMul_one_left]

theorem gfMul_zero_left (a : Byte) : gfMul 0x00#8 a = 0x00#8 := by
  rw [gfMul_comm, gfMul_zero_right]

/-- Distributivity (R94). -/
theorem gfMul_gfAdd (a b c : Byte) : gfMul a (gfAdd b c) = gfAdd (gfMul a b) (gfMul a c) := by
  rw [gfMul_comm a b, gfMul_comm a c, gfMul_comm]
  exact gfMul_xor_left b c a

/-- Multiplying by an inverse undoes multiplication. -/
theorem gfMul_mul_inverse {b i : Byte} (h : gfMul b i = 0x01#8) (a : Byte) : gfMul (gfMul a b) i = a := by
  rw [gfMul_comm a b, gfMul_right_comm, h, gfMul_one_left]

/-! ## Inversion and division -/

theorem invert_zero : invert 0x00#8 = none := rfl

theorem invert_of_ne_zero {a : Byte} (ha : a ≠ 0x00#8) : ∃ i, invert a = some i ∧ gfMul a i = 0x01#8 := by
  obtain ⟨i, hrom, -, hmul⟩ := romRead_gfMul ha
  exact ⟨i, hrom, hmul⟩

/-- Inversion finds the inverse, where there is one (R96). -/
theorem invert_eq_some_iff {a b : Byte} : invert a = some b ↔ gfMul a b = 0x01#8 := by
  by_cases ha : a = 0x00#8
  · rw [ha, invert_zero, gfMul_zero_left]
    exact ⟨nofun, fun h => absurd h (by decide)⟩
  · obtain ⟨i, hinv, hmul⟩ := invert_of_ne_zero ha
    rw [hinv, Option.some.injEq]
    exact ⟨fun h => h ▸ hmul, fun h => gfMul_eq_one_unique h hmul⟩

/-- Only 0 has the square 0: a nonzero byte can be cancelled from the product. -/
theorem gfMul_self_eq_zero {a : Byte} (h : gfMul a a = 0x00#8) : a = 0x00#8 := by
  by_contra ha
  obtain ⟨i, -, hmul⟩ := invert_of_ne_zero ha
  exact ha (by rw [← gfMul_mul_inverse hmul a, h, gfMul_zero_left])

/-- `a * a = 1` says `(a + 1) * (a + 1) = 0`. -/
theorem gfMul_self_eq_one_iff {a : Byte} : gfMul a a = 0x01#8 ↔ a = 0x01#8 := by
  refine ⟨fun h => ?_, fun h => by rw [h, gfMul_one_left]⟩
  have hsquare : gfMul (a ^^^ 0x01#8) (a ^^^ 0x01#8) = 0x00#8 := by
    rw [gfMul_xor_left, gfMul_comm a, gfMul_xor_left, h, gfMul_one_left, gfMul_one_left]
    simp [BitVec.xor_comm]
  exact BitVec.xor_eq_zero_iff.mp (gfMul_self_eq_zero hsquare)

/-- Settles O18: being inverses is symmetric, and the square is 1 at 0x01 only. -/
theorem inversionIsAnInvolution : Obligations.InversionIsAnInvolution := by
  refine ⟨invert_zero, fun a ha => ?_⟩
  obtain ⟨b, hinv, hmul⟩ := invert_of_ne_zero ha
  refine ⟨b, hinv, invert_eq_some_iff.mpr (gfMul_comm b a ▸ hmul), ?_⟩
  calc b = a ↔ invert a = some a := by rw [hinv, Option.some.injEq]
    _ ↔ gfMul a a = 0x01#8 := invert_eq_some_iff
    _ ↔ a = 0x01#8 := gfMul_self_eq_one_iff

theorem gfDiv_zero (a : Byte) : gfDiv a 0x00#8 = none := rfl

/-- Division by a nonzero byte is multiplication by its inverse (R97). -/
theorem gfDiv_of_invert {b i : Byte} (hb : b ≠ 0x00#8) (h : invert b = some i) (a : Byte) :
    gfDiv a b = some (gfMul a i) := by
  rw [gfDiv, if_neg hb, h, Option.map_some]

/-- Division undoes multiplication (R94). -/
theorem gfDiv_gfMul {b : Byte} (hb : b ≠ 0x00#8) (a : Byte) : gfDiv (gfMul a b) b = some a := by
  obtain ⟨i, hinv, hmul⟩ := invert_of_ne_zero hb
  rw [gfDiv_of_invert hb hinv, gfMul_mul_inverse hmul]

/-- Settles O16: each law is one of the lemmas above. -/
theorem fieldLaws : Obligations.FieldLaws := fun a b c =>
  ⟨BitVec.xor_self, BitVec.xor_comm a b, gfMul_comm a b, gfMul_zero_right a, gfMul_one_right a, gfMul_gfAdd a b c,
    invert_of_ne_zero, fun hb => gfDiv_gfMul hb a⟩

/-- Settles O20: at 0 the quotient has no value; elsewhere the corner cases are those of the product. -/
theorem divisionIsMultiplicationByTheInverse : Obligations.DivisionIsMultiplicationByTheInverse := by
  have value {b : Byte} (hb : b ≠ 0x00#8) (a : Byte) : ∃ i, invert b = some i ∧ gfDiv a b = some (gfMul a i) := by
    obtain ⟨i, hinv, -⟩ := invert_of_ne_zero hb
    exact ⟨i, hinv, gfDiv_of_invert hb hinv a⟩
  refine ⟨fun a b => ⟨fun h => ?_, fun h => h ▸ gfDiv_zero a⟩, fun a b hb => value hb a, fun b hb => ⟨?_, ?_, ?_⟩,
    fun a => ?_⟩
  · by_contra hb
    obtain ⟨i, -, hdiv⟩ := value hb a
    simp [hdiv] at h
  · simpa only [gfMul_zero_left] using gfDiv_gfMul hb 0x00#8
  · simpa only [gfMul_one_left] using gfDiv_gfMul hb 0x01#8
  · obtain ⟨i, hinv, hdiv⟩ := value hb 0x01#8
    rw [hdiv, hinv, gfMul_one_left]
  · simpa only [gfMul_one_right] using gfDiv_gfMul (b := 0x01#8) (by decide) a

end Sys2Proof.Machine

namespace Sys2Proof.Machine

/-! ## The builder and the listing of the inverse table -/

theorem romRead_zero : romRead 0x00#8 = none := rfl

theorem romRead_of_ne_zero {i : Byte} (hi : i ≠ 0x00#8) : romRead i = scanInverse i := if_neg hi

/-- The table holds inverse pairs: an entry and its index may change places. -/
theorem romRead_symm {i j : Byte} (h : romRead i = some j) : romRead j = some i :=
  invert_eq_some_iff.mpr (gfMul_comm i j ▸ invert_eq_some_iff.mp h)

theorem tableEntry_set {t : InvTable} (ht : t.length = invEntries) (i k : Byte) (v : Option Byte) :
    tableEntry (t.set i.toNat v) k = if k = i then v else tableEntry t k := by
  have hi : i.toNat < t.length := ht ▸ i.isLt
  by_cases h : k = i
  · simp [tableEntry, h, hi]
  · have hne : i.toNat ≠ k.toNat := fun he => h (BitVec.eq_of_toNat_eq he.symm)
    simp [tableEntry, h, hne]

/-- The builder's table after its outer loop has gone through `done`: what is resolved is resolved to what `RomRead`
returns, and the entries of `done` are resolved. -/
structure PartlyBuilt (done : List Byte) (t : InvTable) : Prop where
  length_eq : t.length = invEntries
  entry_none_or : ∀ k, tableEntry t k = none ∨ tableEntry t k = romRead k
  entry_of_done : ∀ k ∈ done, tableEntry t k = romRead k

theorem partlyBuilt_unresolved : PartlyBuilt [] (List.replicate invEntries none) where
  length_eq := List.length_replicate
  entry_none_or k := .inl (by simp [tableEntry, k.isLt])
  entry_of_done := nofun

theorem buildStep_of_resolved {t : InvTable} {i j : Byte} (h : tableEntry t i = some j) : buildStep t i = t := by
  simp only [buildStep, h]

theorem buildStep_of_unresolved {t : InvTable} {i j : Byte} (h : tableEntry t i = none) (hj : scanInverse i = some j) :
    buildStep t i = (t.set i.toNat (some j)).set j.toNat (some i) := by
  simp only [buildStep, h, hj]

/-- Recording an inverse pair resolves its two entries to what `RomRead` returns. -/
theorem tableEntry_set_pair {t : InvTable} (ht : t.length = invEntries) {i j : Byte} (h : romRead i = some j)
    (k : Byte) : tableEntry ((t.set i.toNat (some j)).set j.toNat (some i)) k =
      if k = j ∨ k = i then romRead k else tableEntry t k := by
  rw [tableEntry_set (List.length_set.trans ht), tableEntry_set ht]
  by_cases hkj : k = j
  · simp [hkj, romRead_symm h]
  · by_cases hki : k = i
    · simp [hki, h]
    · simp [hkj, hki]

/-- One turn of the builder's outer loop: `i` was resolved before, or is recorded with its inverse now (R106). -/
theorem PartlyBuilt.after_buildStep {done : List Byte} {t : InvTable} (ht : PartlyBuilt done t) {i : Byte}
    (hi : i ≠ 0x00#8) : PartlyBuilt (done ++ [i]) (buildStep t i) := by
  cases hentry : tableEntry t i with
  | some j =>
    have hrom : tableEntry t i = romRead i := (ht.entry_none_or i).resolve_left (by simp [hentry])
    rw [buildStep_of_resolved hentry]
    refine ⟨ht.length_eq, ht.entry_none_or, fun k hk => ?_⟩
    rcases List.mem_append.mp hk with hdone | hlast
    · exact ht.entry_of_done k hdone
    · rwa [List.mem_singleton.mp hlast]
  | none =>
    obtain ⟨j, hrom, -⟩ := romRead_gfMul hi
    rw [buildStep_of_unresolved hentry (romRead_of_ne_zero hi ▸ hrom)]
    have hpair := tableEntry_set_pair ht.length_eq hrom
    refine ⟨by simpa using ht.length_eq, fun k => ?_, fun k hk => ?_⟩ <;> rw [hpair] <;> split
    · exact .inr rfl
    · exact ht.entry_none_or k
    · rfl
    · next hne => exact ht.entry_of_done k (by simpa [(not_or.mp hne).2] using hk)

theorem PartlyBuilt.after_loop {is done : List Byte} {t : InvTable} (ht : PartlyBuilt done t)
    (his : ∀ i ∈ is, i ≠ 0x00#8) : PartlyBuilt (done ++ is) (is.foldl buildStep t) := by
  induction is generalizing done t with
  | nil => rwa [List.append_nil]
  | cons i is ih =>
    obtain ⟨hi, his⟩ := List.forall_mem_cons.mp his
    rw [List.append_cons]
    exact ih (ht.after_buildStep hi) his

theorem partlyBuilt_buildInv : PartlyBuilt nonzeroBytes buildInv :=
  partlyBuilt_unresolved.after_loop fun _ => mem_nonzeroBytes.mp

/-- The builder resolves the nonzero entries; at 0 both sides have no value. -/
theorem tableEntry_buildInv (i : Byte) : tableEntry buildInv i = romRead i := by
  by_cases hi : i = 0x00#8
  · subst hi
    exact (partlyBuilt_buildInv.entry_none_or 0x00#8).elim (·.trans romRead_zero.symm) id
  · exact partlyBuilt_buildInv.entry_of_done i (mem_nonzeroBytes.mpr hi)

theorem length_invListing : invListing.length = invEntries := by
  decide +kernel

/-- The listing holds inverses, and inverses are unique. -/
theorem tableEntry_invListing (i : Byte) : tableEntry invListing i = romRead i := by
  by_cases hi : i = 0x00#8
  · rw [hi, romRead_zero]
    rfl
  · obtain ⟨j, hentry, hmul⟩ := Option.map_eq_some_iff.mp (invListing_gfMul i hi)
    exact hentry.trans (invert_eq_some_iff.mpr hmul).symm

/-- Settles O19: the builder by the invariant of its outer loop, the listing by the uniqueness of inverses. -/
theorem builderBuildsTheTable : Obligations.BuilderBuildsTheTable :=
  ⟨partlyBuilt_buildInv.length_eq, length_invListing, fun i => ⟨tableEntry_buildInv i, tableEntry_invListing i⟩⟩

end Sys2Proof.Machine

namespace Sys2Proof.Machine

/-! ## The binary operators on fewer than two elements -/

/-- Where the two pops empty a stack that fits, there is room for the result (R44), which becomes the one element. -/
theorem State.binary_of_emptied {s : State} {d x y : Byte} (hp : s.popTwo d = (x, y, s.setStack []))
    (hs : s.StackFits) (f : Byte → Byte → Option Byte) :
    s.binary d f = (f x y).elim (s.raise .faultDiv0) fun v => s.setStack [v] := by
  have hroom : (s.setStack []).isFull = false := State.not_full_after_pops hs (.inr rfl)
  cases hf : f x y <;> simp [State.binary, hp, hf, State.push_of_not_full hroom]

/-- On an empty stack both operands are the default (R42). -/
theorem State.binary_of_nil {s : State} (h : s.stack = []) (hs : s.StackFits) (d : Byte)
    (f : Byte → Byte → Option Byte) :
    s.binary d f = (f d d).elim (s.raise .faultDiv0) fun v => s.setStack [v] := by
  have hp : s.popTwo d = (d, d, s.setStack []) := by
    rw [State.popTwo_eq (State.popOr_nil h d) (State.popOr_nil h d), ← h, State.setStack_self]
  exact State.binary_of_emptied hp hs f

/-- On a stack of one element the second-popped operand is the default (R42). -/
theorem State.binary_of_singleton {s : State} {x : Byte} (h : s.stack = [x]) (hs : s.StackFits) (d : Byte)
    (f : Byte → Byte → Option Byte) :
    s.binary d f = (f x d).elim (s.raise .faultDiv0) fun v => s.setStack [v] := by
  obtain ⟨-, -, hpops, -⟩ := popOrPrimitive s d
  exact State.binary_of_emptied (hpops x h) hs f

/-! ## The encodings of an operator -/

/-- An operator of one character with the opcode `op`: `op` alone selects it, whatever `imm8` is (R72), and its token
stands for the word with `imm8` 0 (R73). -/
theorem operator_encodings {i : Instr} {op : BitVec 4} {ch : Byte} (htoken : operatorToken [ch] = some i)
    (hword : encode i = packWord op 0x00#8) (hop : op ≠ 0x0#4) :
    (∀ imm8 : Byte, decode (packWord op imm8) = i) ∧ classify [ch] = packWord op 0x00#8 :=
  ⟨fun imm8 => by rw [decode_packWord_of_ne_zero hop, ← hword, decode_encode],
    (classify_of_command (.inl htoken)).trans hword⟩

/-! ## ADD, XOR and SUB -/

/-- Settles O24: the three rows of the opcode table differ in their encodings only; the shared meaning is the exclusive
or of the two operands, where a missing one is 0 and changes nothing. -/
theorem addXorSubResults : Obligations.AddXorSubResults := by
  intro i op ch hrow
  obtain ⟨htoken, hword, hop, hexec⟩ : operatorToken [ch] = some i ∧ encode i = packWord op 0x00#8 ∧ op ≠ 0x0#4 ∧
      ∀ s, exec i s = s.whileRunning State.additive := by
    rcases hrow with ⟨rfl, rfl, rfl⟩ | ⟨rfl, rfl, rfl⟩ | ⟨rfl, rfl, rfl⟩
    · exact ⟨rfl, rfl, by decide, exec_add_eq⟩
    · exact ⟨rfl, rfl, by decide, exec_xor_eq⟩
    · exact ⟨rfl, rfl, by decide, exec_sub_eq⟩
  obtain ⟨hdecode, hclassify⟩ := operator_encodings htoken hword hop
  refine ⟨hdecode, hclassify, fun s hrun hs => ?_⟩
  rw [hexec, State.whileRunning_run hrun, State.additive_eq_binary]
  refine ⟨fun h => ?_, fun x h => ?_, fun low y x h => ?_⟩
  · rw [State.binary_of_nil h hs]
    rfl
  · rw [State.binary_of_singleton h hs, gfAdd, BitVec.xor_zero]
    rfl
  · rw [State.binary_of_two h hs]
    rfl

end Sys2Proof.Machine

namespace Sys2Proof.Machine

/-! ## MUL and DIV -/

theorem exec_mul_of_run {s : State} (hrun : s.status = .run) :
    exec .mul s = .next (s.binary 0x01#8 fun a b => some (gfMul a b)) := by
  rw [exec_mul_eq, State.whileRunning_run hrun, State.multiply_eq_binary]

theorem exec_div_of_run {s : State} (hrun : s.status = .run) :
    exec .div s = .next (s.binary 0x00#8 fun a b => gfDiv b a) := by
  rw [exec_div_eq, State.whileRunning_run hrun, State.divide_eq_binary]

/-- A product with a factor 0 is 0 (R94). -/
theorem gfMul_eq_zero_of_factor {a b : Byte} (h : a = 0x00#8 ∨ b = 0x00#8) : gfMul a b = 0x00#8 := by
  rcases h with rfl | rfl
  · exact gfMul_zero_left b
  · exact gfMul_zero_right a

/-- Settles O25: MUL is the product of its two operands, where a missing one is 1 and changes nothing. -/
theorem mulResults : Obligations.MulResults := by
  obtain ⟨hdecode, hclassify⟩ :=
    operator_encodings (i := .mul) (op := 0x4#4) (ch := 0x2A#8) rfl rfl (by decide)
  refine ⟨hdecode, hclassify, fun s hrun hs => ?_⟩
  rw [exec_mul_of_run hrun]
  refine ⟨fun h => ?_, fun x h => ?_, fun low y x h => ⟨?_, gfMul_comm x y, gfMul_eq_zero_of_factor⟩⟩
  · rw [State.binary_of_nil h hs, gfMul_one_left]
    rfl
  · rw [State.binary_of_singleton h hs, gfMul_one_right]
    rfl
  · rw [State.binary_of_two h hs]
    rfl

/-- The corner cases of R126 for a quotient written as a product with the divisor's inverse. -/
theorem quotient_corner_cases {x i : Byte} (h : invert x = some i) (y : Byte) :
    (y = 0x00#8 → gfMul y i = 0x00#8) ∧ (y = x → gfMul y i = 0x01#8) ∧ (x = 0x01#8 → gfMul y i = y) ∧
      (y = 0x01#8 → gfMul y i = i) := by
  have hmul : gfMul x i = 0x01#8 := invert_eq_some_iff.mp h
  refine ⟨fun hy => gfMul_eq_zero_of_factor (.inl hy), fun hy => hy ▸ hmul, fun hx => ?_, fun hy => ?_⟩
  · have hi : i = 0x01#8 := by rwa [hx, gfMul_one_left] at hmul
    rw [hi, gfMul_one_right]
  · rw [hy, gfMul_one_left]

/-- Settles O26: a nonzero divisor has an inverse, and the quotient is the product with it; a missing dividend is 0. -/
theorem divResults : Obligations.DivResults := by
  obtain ⟨hdecode, hclassify⟩ :=
    operator_encodings (i := .div) (op := 0x5#4) (ch := 0x2F#8) rfl rfl (by decide)
  refine ⟨hdecode, hclassify, fun s hrun hs x hx => ?_⟩
  obtain ⟨i, hinv, -⟩ := invert_of_ne_zero hx
  rw [exec_div_of_run hrun]
  refine ⟨fun h => ?_, fun low y h => ⟨i, hinv, ?_, quotient_corner_cases hinv y⟩⟩
  · rw [State.binary_of_singleton h hs, gfDiv_of_invert hx hinv, gfMul_zero_left]
    rfl
  · rw [State.binary_of_two h hs, gfDiv_of_invert hx hinv]
    rfl

/-- The first-popped operand is what the first pop returns, whatever lies below it. -/
theorem State.popTwo_fst (s : State) (d : Byte) : (s.popTwo d).1 = (s.popOr d).1 := rfl

/-- Where the operation has no result for the first-popped operand, there is the event on the state before, whatever
the second operand is. -/
theorem State.binary_of_none {s : State} {d : Byte} {f : Byte → Byte → Option Byte}
    (h : ∀ b, f (s.popOr d).1 b = none) : s.binary d f = s.raise .faultDiv0 := by
  simp only [State.binary, State.popTwo_fst, h]

/-- Settles O27: the first pop returns 0 in both cases, and no dividend has a quotient by 0. -/
theorem divisionByZeroFaults : Obligations.DivisionByZeroFaults := by
  intro s hrun hzero
  have hdivisor : (s.popOr 0x00#8).1 = 0x00#8 := by
    rcases hzero with hempty | ⟨low, htop⟩
    · rw [State.popOr_nil hempty]
    · rw [State.popOr_concat htop]
  have hnone : ∀ b, gfDiv b (s.popOr 0x00#8).1 = none := fun b => by rw [hdivisor, gfDiv_zero]
  rw [exec_div_of_run hrun, State.binary_of_none hnone]
  rfl

end Sys2Proof.Machine

namespace Sys2Proof.Machine

/-! ## The directives -/

/-- `operator_encodings` for directives as well, whose tokens have two characters: `op` alone selects the instruction,
whatever `imm8` is (R72), and its token stands for the word with `imm8` 0 (R73). -/
theorem commandToken_encodings {i : Instr} {op : BitVec 4} {t : Token} (htoken : IsCommandToken t i)
    (hword : encode i = packWord op 0x00#8) (hop : op ≠ 0x0#4) :
    (∀ imm8 : Byte, decode (packWord op imm8) = i) ∧ classify t = packWord op 0x00#8 :=
  ⟨fun imm8 => by rw [decode_packWord_of_ne_zero hop, ← hword, decode_encode],
    (classify_of_command htoken).trans hword⟩

theorem exec_dump_of_run {s : State} (hrun : s.status = .run) : exec .dump s = .next (s.emit (.dump s.stack)) := by
  rw [exec_dump_eq, State.whileRunning_run hrun]

theorem exec_clr_of_run {s : State} (hrun : s.status = .run) : exec .clr s = .next (s.setStack []) := by
  rw [exec_clr_eq, State.whileRunning_run hrun]

/-- Settles O29: under RUN, DUMP is the append alone, whatever the stack holds. -/
theorem dumpAppendsOneRecord : Obligations.DumpAppendsOneRecord := by
  obtain ⟨hdecode, hclassify⟩ :=
    commandToken_encodings (i := .dump) (op := 0x6#4) (t := [0x5F#8, 0x64#8]) (.inr rfl) rfl (by decide)
  exact ⟨hdecode, hclassify, fun _ => exec_dump_of_run, fun _ _ h => (exec_cases h).1⟩

/-- An instruction other than CLR lowers the depth by at most one: a binary operator puts its result in place of at most
two operands, and the others remove nothing (R136). -/
theorem exec_depth_le_succ {i : Instr} {s t : State} (hs : s.StackFits) (h : exec i s = .next t) (hclr : i ≠ .clr) :
    s.stack.length ≤ t.stack.length + 1 := by
  rcases instr_kinds i with ⟨v, rfl⟩ | hop | rfl | rfl | rfl
  · rw [exec_push_next h, State.push_stack, List.length_append]
    omega
  · rcases exec_binary_cases_of_fits hop hs h with ⟨-, rfl⟩ | ⟨low, removed, v, hsplit, hcount, rfl⟩
    · simp
    · have hlen : s.stack.length = low.length + removed.length := by simp [hsplit]
      simp only [State.setStack_stack, List.length_append, List.length_singleton]
      omega
  · simp [exec_dump_next h]
  · exact absurd rfl hclr
  · simp [exec_term_next h]

/-- Settles O30: the last part is the contrapositive of `exec_depth_le_succ`. -/
theorem clrEmptiesTheStack : Obligations.ClrEmptiesTheStack := by
  obtain ⟨hdecode, hclassify⟩ :=
    commandToken_encodings (i := .clr) (op := 0x7#4) (t := [0x5F#8, 0x63#8]) (.inr rfl) rfl (by decide)
  refine ⟨hdecode, hclassify, fun _ => exec_clr_of_run, fun _ _ h => (exec_cases h).1, fun i s t hs h hlower => ?_⟩
  by_contra hclr
  have hdepth := exec_depth_le_succ hs h hclr
  omega

/-! ## The text of a dump record -/

/-- Characters other than the space join the token being read. -/
theorem splitFrom_append {t : Token} (ht : tokenWf t = true) (cur : Token) (rest : Line) :
    splitFrom cur (t ++ rest) = splitFrom (cur ++ t) rest := by
  rw [tokenWf_iff] at ht
  induction t generalizing cur with
  | nil => simp
  | cons ch t ih =>
    obtain ⟨hch, hrest⟩ := List.ne_and_not_mem_of_not_mem_cons ht
    rw [List.cons_append, splitFrom_of_ne_space hch.symm, ih hrest, List.append_assoc, List.singleton_append]

/-- Tokens with a space before each are read back as they are. -/
theorem splitFrom_flatMap_space {α : Type} {f : α → Token} (hf : ∀ e, tokenWf (f e) = true) (cur : Token)
    (l : List α) : splitFrom cur (l.flatMap fun e => chSpace :: f e) = cur :: l.map f := by
  induction l generalizing cur with
  | nil => rfl
  | cons e l ih =>
    rw [List.flatMap_cons, List.cons_append, splitFrom_space, splitFrom_append (hf e), List.nil_append, ih,
      List.map_cons]

theorem tokenWf_decimalNumeral (v : Byte) : tokenWf (decimalNumeral v) = true :=
  tokenWf_of_literal (literal_decimalNumeral v)

/-- A dump record's text in tokens (R137). -/
theorem split_renderDec (s : List Byte) :
    split (renderDec (.dump s)) = [0x44#8, 0x45#8, 0x43#8, 0x3A#8] :: s.map decimalNumeral := by
  rw [split, renderDec, splitFrom_append (by decide), List.nil_append,
    splitFrom_flatMap_space tokenWf_decimalNumeral]

theorem decLiteral_decimalNumeral (v : Byte) : decLiteral (decimalNumeral v) = some v := by
  rw [decLiteral, byteNumeral_of_ne_nil 10 decDigit (decimalNumeral_ne_nil v), numeralFrom_decimalNumeral]
  exact (byteOfNumber_eq_some_iff v.toNat v).mpr rfl

theorem eq_zero_of_decChar {d : Nat} (hd : d < 10) (h : decChar d = 0x30#8) : d = 0 := by
  have hdigit : some d = decDigit 0x30#8 := h ▸ (decDigit_decChar hd).symm
  exact Option.some.inj hdigit

/-- A numeral of two or three digits begins with a nonzero one. -/
theorem decimalNumeral_of_head_zero {v : Byte} (h : (decimalNumeral v).head? = some 0x30#8) :
    decimalNumeral v = [0x30#8] := by
  have hv := v.isLt
  unfold decimalNumeral at h ⊢
  split_ifs at h ⊢
  · simpa using h
  all_goals
    have hzero := eq_zero_of_decChar (by omega) (Option.some.inj h)
    omega

/-- Settles O57: no numeral holds a space, so the spaces written before them are those the text is split at. -/
theorem dumpTextIsTheNumerals : Obligations.DumpTextIsTheNumerals :=
  fun s => ⟨split_renderDec s, fun v _ => ⟨decLiteral_decimalNumeral v, decimalNumeral_of_head_zero⟩⟩

end Sys2Proof.Machine

namespace Sys2Proof.Machine

/-! ## PUSH and TERM -/

/-- Settles O28: under RUN, PUSH is `Push(imm8)` alone, full or not. -/
theorem pushResults : Obligations.PushResults := by
  refine ⟨decode_packWord_zero, fun t v => classify_of_literal, fun s imm8 hrun => ?_⟩
  rw [exec_push_of_run hrun]
  obtain ⟨hfull, hroom⟩ := pushPrimitive s imm8
  exact ⟨fun h => congrArg Host.Outcome.next (hroom h), fun h => congrArg Host.Outcome.next (hfull h)⟩

/-- Bit 3 is set from 8 on. -/
theorem getLsbD_three (op : BitVec 4) : op.getLsbD 3 = decide (8 ≤ op.toNat) :=
  op.msb_eq_decide

/-- Every `op` with bit 3 set is TERM's, not only the canonical 0xF (R72). -/
theorem decode_packWord_of_ge_eight {op : BitVec 4} (hop : 8 ≤ op.toNat) (imm8 : Byte) :
    decode (packWord op imm8) = .term := by
  rw [← getLsbD_11_iff_decode_term, packWord_getLsbD_11, getLsbD_three, decide_eq_true hop]

theorem exec_term_of_run {s : State} (hrun : s.status = .run) : exec .term s = .next (s.raise .halted) := by
  rw [exec_term_eq, State.whileRunning_run hrun]

/-- Settles O31: bit 3 of `op` is the bit of the word that alone selects TERM, and a token of no other class is what
`classify` leaves to it. -/
theorem termHalts : Obligations.TermHalts :=
  ⟨fun _ imm8 hop => decode_packWord_of_ge_eight hop imm8,
    fun t hop hdir => classify_of_none ((not_isCommandToken_iff t).mpr ⟨hop, hdir⟩),
    fun _ => exec_term_of_run⟩

end Sys2Proof.Machine

namespace Sys2Proof.Machine

/-! ## When STATUS leaves RUN -/

/-- Settles O36: every instruction is an effect guarded by RUN. -/
theorem stoppedCoreExecutesNothing : Obligations.StoppedCoreExecutesNothing :=
  fun i _ hstop => exec_of_stopped hstop i

/-- The first-popped operand is the top, or the default where there is none (R42). -/
theorem State.popOr_fst (s : State) (d : Byte) : (s.popOr d).1 = s.stack.getLast?.getD d := by
  rcases s.popOr_cases d with ⟨h, hp⟩ | ⟨low, v, h, hp⟩ <;> simp [h, hp]

/-- STATUS after a `Push` on a running core (R41). -/
theorem State.push_status {s : State} (hrun : s.status = .run) (v : Byte) :
    (s.push v).status = if s.depth = .finite s.stack.length then .faultStackOvf else .run := by
  rcases s.push_cases v with ⟨hfull, hp⟩ | ⟨hroom, hp⟩
  · rw [hp, if_pos (State.isFull_iff.mp hfull)]
    rfl
  · rw [hp, if_neg (State.isFull_eq_false_iff.mp hroom)]
    exact hrun

/-- STATUS after a DIV: its event for a divisor 0; any other divisor gives a quotient, which finds room (R126, R44). -/
theorem exec_div_status {s t : State} (hrun : s.status = .run) (hs : s.StackFits) (h : exec .div s = .next t) :
    t.status = if s.stack.getLast?.getD 0x00#8 = 0x00#8 then .faultDiv0 else .run := by
  rw [exec_div_of_run hrun] at h
  obtain rfl := Host.Outcome.next.inj h
  rw [← State.popOr_fst]
  by_cases hzero : (s.popOr 0x00#8).1 = 0x00#8
  · rw [if_pos hzero, State.binary_of_none fun b => by rw [hzero, gfDiv_zero]]
    rfl
  · obtain ⟨i, hinv, -⟩ := invert_of_ne_zero hzero
    obtain ⟨low, removed, hsplit, hcount, hp⟩ := s.popTwo_split 0x00#8
    have hroom := State.not_full_of_split hs hsplit hcount
    simp [hzero, State.binary, State.popTwo_fst, gfDiv_of_invert hzero hinv, hp, State.push_of_not_full hroom, hrun]

/-- The instructions that never write STATUS. -/
abbrev eventlessInstrs : List Instr := [.add, .xor, .sub, .mul, .dump, .clr]

/-- PUSH, DIV and TERM have an event each, and no other instruction has one (R197). -/
theorem instr_event_kinds (i : Instr) : (∃ v, i = .push v) ∨ i = .div ∨ i = .term ∨ i ∈ eventlessInstrs := by
  cases i <;> simp

/-- Settles O33: for each of the three instructions with an event, what decides it. -/
theorem statusLeavesRunExactlyThen : Obligations.StatusLeavesRunExactlyThen := by
  intro i s hrun hs
  obtain ⟨t, ht⟩ := exec_of_run hrun i
  refine ⟨t, ht, ?_⟩
  rcases instr_event_kinds i with ⟨v, rfl⟩ | rfl | rfl | hquiet
  · rw [exec_push_next ht, State.push_status hrun]
    split <;> simp [*]
  · rw [exec_div_status hrun hs ht]
    split <;> simp [*]
  · simp [exec_term_next ht, Cause.status]
  · obtain ⟨-, -, -, hkeep, -⟩ := instructionFrame i s t hs ht
    have hne : i ≠ .term ∧ i ≠ .div ∧ ∀ v, i ≠ .push v := by
      refine ⟨?_, ?_, fun v => ?_⟩ <;> rintro rfl <;> simp at hquiet
    simp [hkeep hquiet, hrun, hne]

end Sys2Proof.Machine

namespace Sys2Proof.Machine

/-! ## When a step exists -/

/-- A running core executes a word, whatever it is (R155). -/
theorem exists_runWord {s : State} (hrun : s.status = .run) (cw : CmdWord) : ∃ t, runWord cw s = .next t := by
  obtain ⟨u, hu⟩ := exec_of_run hrun (decode cw)
  exact ⟨u.dropLineIfStopped, by rw [runWord, hu, settle]⟩

theorem exists_runToken {s : State} (hrun : s.status = .run) (tk : Token) (rest : List Token) :
    ∃ t, runToken tk rest s = .next t :=
  exists_runWord (s := (s.setLine rest).setCursor (s.cursor.afterToken rest.isEmpty)) hrun (classify tk)

theorem exists_runCommand {s : State} (hrun : s.status = .run) (cw : CmdWord) : ∃ t, runCommand cw s = .next t :=
  exists_runWord (s := s.setCursor s.cursor.afterCommand) hrun cw

theorem startLine_of_split {l : Line} {tk : Token} {rest : List Token} (hsplit : split l = tk :: rest) (s : State) :
    startLine l s = runToken tk rest s := by
  rw [startLine, hsplit]

/-- A line has a first token, which is executed when the line is taken up (R61, R172). -/
theorem exists_startLine {s : State} (hrun : s.status = .run) (l : Line) : ∃ t, startLine l s = .next t := by
  obtain ⟨tk, rest, hsplit⟩ := List.exists_cons_of_ne_nil (split_ne_nil l)
  rw [startLine_of_split hsplit]
  exact exists_runToken hrun tk rest

/-- A line is in progress only while the core runs; then the next token has a step. -/
theorem State.exists_workOr {s : State} {idle : Result} (hwork : s.status = .run ∨ s.line = [])
    (hidle : ∃ t, idle = .next t) : ∃ t, s.workOr idle = .next t := by
  cases hl : s.line with
  | nil => rwa [State.workOr_idle hl]
  | cons tk rest =>
    rw [State.workOr_busy hl]
    exact exists_runToken (hwork.resolve_right (by simp [hl])) tk rest

theorem State.exists_acceptIfRunning {s : State} {accepted : Result}
    (haccepted : s.status = .run → ∃ t, accepted = .next t) : ∃ t, s.acceptIfRunning accepted = .next t := by
  by_cases hrun : s.status = .run
  · rw [State.acceptIfRunning_run hrun]
    exact haccepted hrun
  · exact ⟨s, State.acceptIfRunning_stopped hrun _⟩

/-- There is a step while the core runs, and while it is idle and the host offers something (R155, R159, R170). -/
theorem exists_step {s : State} (h : s.status = .run ∨ s.line = [] ∧ s.input ≠ []) : ∃ t, step s = .next t := by
  have hwork : s.status = .run ∨ s.line = [] := h.imp_right And.left
  rw [step, turn]
  cases hin : s.input with
  | nil =>
    have hrun : s.status = .run := h.resolve_right (by simp [hin])
    exact State.exists_workOr hwork ⟨s, if_pos hrun⟩
  | cons a more =>
    cases a with
    | reset => exact ⟨_, rfl⟩
    | readStatus => exact ⟨_, rfl⟩
    | pause => exact State.exists_workOr (s := s.setInput more) hwork ⟨_, rfl⟩
    | readStack => exact State.exists_workOr hwork ⟨_, rfl⟩
    | readOut => exact State.exists_workOr hwork ⟨_, rfl⟩
    | submitLine l =>
      exact State.exists_workOr hwork (State.exists_acceptIfRunning fun hrun => exists_startLine hrun l)
    | submitCommand cw =>
      exact State.exists_workOr hwork (State.exists_acceptIfRunning fun hrun => exists_runCommand hrun cw)

/-- An idle core to which nothing is offered waits for the host. -/
theorem step_of_nothing_offered {s : State} (hl : s.line = []) (hi : s.input = []) : step s = s.waitForHost := by
  rw [step, turn, hi]
  exact State.workOr_idle hl _

/-- A stopped core that meets the invariant has no line in progress (R158), so it can only wait (R155). -/
theorem step_of_run_over {s : State} (hs : s.Inv) (hstop : s.status ≠ .run) (hi : s.input = []) :
    step s = .fault (.stopped s.status) := by
  obtain ⟨-, hidle, -⟩ := hs
  rw [step_of_nothing_offered (hidle hstop) hi, State.waitForHost, if_neg hstop]

/-- Settles O50: a core under the invariant runs, or is stopped and idle; then it is up to the host. -/
theorem stepStopsOnlyWhenTheRunIsOver : Obligations.StepStopsOnlyWhenTheRunIsOver := by
  refine ⟨fun s hrun => exists_step (.inl hrun), fun s hrun hl hi => ?_, fun s => step_of_run_over, fun s hs => ?_⟩
  · rw [step_of_nothing_offered hl hi, State.waitForHost, if_pos hrun]
  · by_cases hrun : s.status = .run
    · exact .inl (exists_step (.inl hrun))
    · by_cases hi : s.input = []
      · exact .inr ⟨hrun, hi, step_of_run_over hs hrun hi⟩
      · obtain ⟨-, hidle, -⟩ := hs
        exact .inl (exists_step (.inr ⟨hidle hrun, hi⟩))

end Sys2Proof.Machine

namespace Sys2Proof.Machine

/-! ## A submitted line -/

/-- An idle running core takes a submitted line up (R172). -/
theorem step_submitLine {s : State} {l : Line} {more : List HostAction} (hrun : s.status = .run) (hl : s.line = [])
    (hi : s.input = .submitLine l :: more) : step s = startLine l (s.setInput more) := by
  rw [step, turn, hi]
  exact (State.workOr_idle hl _).trans (State.acceptIfRunning_run (s := s.setInput more) hrun _)

/-- A line that a stopped idle core does not accept is over, without effect (R172, log 5). -/
theorem step_submitLine_of_stopped {s : State} {l : Line} {more : List HostAction} (hstop : s.status ≠ .run)
    (hl : s.line = []) (hi : s.input = .submitLine l :: more) : step s = .next (s.setInput more) := by
  rw [step, turn, hi]
  exact (State.workOr_idle hl _).trans (State.acceptIfRunning_stopped (s := s.setInput more) hstop _)

/-- Settles O43. -/
theorem stoppedCoreAcceptsNothing : Obligations.StoppedCoreAcceptsNothing := by
  intro s l cw more hstop hl hin
  rcases hin with hi | hi
  · exact step_submitLine_of_stopped hstop hl hi
  · exact step_submitCommand_of_stopped hstop hl hi

/-- Settles O42: both steps execute the line's first token with the rest of it in progress. -/
theorem submittedLineStartsAtOnce : Obligations.SubmittedLineStartsAtOnce := by
  intro s l more hrun hl hi
  obtain ⟨tk, rest, hsplit⟩ := List.exists_cons_of_ne_nil (split_ne_nil l)
  have hbusy := step_of_busy (s := { s with line := split l, input := .pause :: more }) hsplit (by simp) (by simp)
  rw [step_submitLine hrun hl hi, startLine_of_split hsplit, hbusy]
  rfl

/-- The host leaves a busy core alone: its next action is none that a core takes with a line in progress (log 3, 4). -/
structure HostWaits (inp : List HostAction) : Prop where
  no_reset : inp.head? ≠ some .reset
  no_readStatus : inp.head? ≠ some .readStatus
  no_pause : inp.head? ≠ some .pause

/-- While the host waits, a busy core takes none of its actions. -/
theorem step_of_busy_waiting {s : State} {tk : Token} {rest : List Token} (hl : s.line = tk :: rest)
    (hwait : HostWaits s.input) : step s = runToken tk rest s := by
  rw [step_of_busy hl hwait.no_reset hwait.no_readStatus, if_neg hwait.no_pause, State.setInput_self]

/-- Taking a line up while the host waits is the step of the core that has the line in progress. -/
theorem step_submitLine_waiting {s : State} {l : Line} {more : List HostAction} {c : Cursor}
    (hrun : s.status = .run) (hwait : HostWaits more) :
    step (s.fetched (.submitLine l :: more) [] c) = step (s.fetched more (split l) c) := by
  obtain ⟨tk, rest, hsplit⟩ := List.exists_cons_of_ne_nil (split_ne_nil l)
  rw [step_of_busy_waiting (s := s.fetched more (split l) c) hsplit hwait,
    step_submitLine (s := s.fetched (.submitLine l :: more) [] c) hrun rfl rfl, startLine_of_split hsplit]
  rfl

/-- A token of a line takes one step, which does what `applyCommand` does to the architectural state and drops the rest
of the line if STATUS has left RUN (R157, R158). -/
theorem step_token {s : State} {more : List HostAction} (hrun : s.status = .run) (hwait : HostWaits more) (tk : Token)
    (rest : List Token) (c : Cursor) :
    ∃ c', step (s.fetched more (tk :: rest) c) = .next ((applyCommand s (classify tk)).fetched more
      (if (applyCommand s (classify tk)).status = .run then rest else []) c') := by
  obtain ⟨u, hu⟩ := exec_of_run hrun (decode (classify tk))
  refine ⟨c.afterToken rest.isEmpty, ?_⟩
  rw [step_of_busy_waiting (s := s.fetched more (tk :: rest) c) rfl hwait, applyCommand_of_next hu]
  have hexec := exec_fetched hu more rest (c.afterToken rest.isEmpty)
  exact (congrArg settle hexec).trans (congrArg Host.Outcome.next (State.dropLineIfStopped_eq_ite _))

/-- Words after a stop have no effect (R158). -/
theorem runCommands_of_stopped {s : State} (hstop : s.status ≠ .run) (cws : List CmdWord) : runCommands s cws = s := by
  induction cws with
  | nil => rfl
  | cons cw cws ih => rwa [runCommands, List.foldl_cons, applyCommand_of_stopped hstop]

/-- Two states with the same step have the same runs from the first step on. -/
theorem run_congr_of_step {s t : State} (h : step s = step t) {n : Nat} (hn : 1 ≤ n) :
    Host.Core.run core n s = Host.Core.run core n t := by
  obtain ⟨n, rfl⟩ := Nat.exists_eq_add_of_le' hn
  simp only [Host.Core.run, core_step, h]

/-- The machine gets from `s` to `t` in at least one and at most `k` steps, and in all `k` of them if `t` still runs. -/
def RunsWithin (k : Nat) (s t : State) : Prop :=
  ∃ n, 1 ≤ n ∧ n ≤ k ∧ Host.Core.run core n s = .next t ∧ (t.status = .run → n = k)

theorem RunsWithin.of_step {s t : State} (h : step s = .next t) {k : Nat} (hk : 1 ≤ k)
    (hall : t.status = .run → 1 = k) : RunsWithin k s t :=
  ⟨1, Nat.le_refl 1, hk, run_of_step ((core_step s).trans h) 0, hall⟩

theorem RunsWithin.step_trans {k : Nat} {s t u : State} (h : step s = .next t) (hrest : RunsWithin k t u) :
    RunsWithin (k + 1) s u := by
  obtain ⟨n, -, hn, hrun, hall⟩ := hrest
  exact ⟨n + 1, Nat.le_add_left 1 n, Nat.succ_le_succ hn, (run_of_step ((core_step s).trans h) n).trans hrun,
    fun hu => congrArg Nat.succ (hall hu)⟩

/-- A line in progress, token by token (R157): by induction on the tokens; after a stop the rest of them has no effect,
neither in the machine nor in `runCommands`. -/
theorem runsWithin_line {more : List HostAction} (hwait : HostWaits more) (rest : List Token) (tk : Token) {s : State}
    (hrun : s.status = .run) (c : Cursor) :
    ∃ c', RunsWithin (rest.length + 1) (s.fetched more (tk :: rest) c)
      ((runCommands s ((tk :: rest).map classify)).fetched more [] c') := by
  induction rest generalizing tk s c with
  | nil =>
    obtain ⟨c₁, hstep⟩ := step_token hrun hwait tk [] c
    rw [ite_self] at hstep
    exact ⟨c₁, .of_step hstep (Nat.le_refl 1) fun _ => rfl⟩
  | cons tk' rest ih =>
    obtain ⟨c₁, hstep⟩ := step_token hrun hwait tk (tk' :: rest) c
    have hfold : runCommands s ((tk :: tk' :: rest).map classify) =
      runCommands (applyCommand s (classify tk)) ((tk' :: rest).map classify) := rfl
    rw [hfold]
    by_cases hrun₁ : (applyCommand s (classify tk)).status = .run
    · rw [if_pos hrun₁] at hstep
      obtain ⟨c₂, hrest⟩ := ih tk' hrun₁ c₁
      exact ⟨c₂, .step_trans hstep hrest⟩
    · rw [if_neg hrun₁] at hstep
      rw [runCommands_of_stopped hrun₁]
      exact ⟨c₁, .of_step hstep (Nat.le_add_left 1 _) fun h => absurd h hrun₁⟩

/-- A line submitted to an idle running core whose host then waits: `exec_line` (R157, R172). -/
theorem runsWithin_submitLine {s : State} (hrun : s.status = .run) (l : Line) {more : List HostAction}
    (hwait : HostWaits more) (c : Cursor) :
    ∃ c', RunsWithin (split l).length (s.fetched (.submitLine l :: more) [] c)
      ((execLine s l).fetched more [] c') := by
  have hstart := step_submitLine_waiting (l := l) (c := c) hrun hwait
  rw [execLine]
  obtain ⟨tk, rest, hsplit⟩ := List.exists_cons_of_ne_nil (split_ne_nil l)
  rw [hsplit] at hstart ⊢
  obtain ⟨c', n, hpos, hn, hline, hall⟩ := runsWithin_line hwait rest tk hrun c
  exact ⟨c', n, hpos, hn, (run_congr_of_step hstart hpos).trans hline, hall⟩

/-- An idle state, with the host's actions replaced. -/
theorem State.eq_fetched_of_idle {s : State} (hl : s.line = []) (inp : List HostAction) :
    { s with input := inp } = s.fetched inp [] s.cursor := by
  rw [← hl]
  rfl

/-- Settles O54. -/
theorem submittedLineExecutesInOrder : Obligations.SubmittedLineExecutesInOrder := by
  intro s l more hrun hl hi hreset hstatus hpause
  obtain ⟨c, n, hpos, hn, hline, hall⟩ := runsWithin_submitLine hrun l ⟨hreset, hstatus, hpause⟩ s.cursor
  rw [← State.eq_fetched_of_idle hl, ← hi] at hline
  exact ⟨n, (execLine s l).fetched more [] c, hpos, hn, hline, rfl, rfl, rfl, hall⟩

/-- Settles O55: the line and its words both leave the architectural state of `execLine`. -/
theorem lineEqualsItsCommandWords : Obligations.LineEqualsItsCommandWords := by
  intro s l hrun hl
  have hwait : HostWaits [] := ⟨nofun, nofun, nofun⟩
  obtain ⟨c, n, -, -, hline, -⟩ := runsWithin_submitLine hrun l hwait s.cursor
  obtain ⟨c', hwords⟩ := run_submitCommands ((split l).map classify) s s.cursor
  rw [List.map_map] at hwords
  rw [← State.eq_fetched_of_idle hl] at hline hwords
  exact ⟨n, _, (execLine s l).fetched [] [] c, (execLine s l).fetched [] [] c', hline, rfl, rfl, hwords, rfl, rfl⟩

end Sys2Proof.Machine

namespace Sys2Proof.Machine

/-! ## A finite input is consumed -/

/-- The turns that the host's actions to come can take up. -/
def turnsOf (inp : List HostAction) : Nat := (inp.map HostAction.turns).sum

/-- The turns that the line in progress and the host's actions to come can take up. -/
def State.turnsLeft (s : State) : Nat := s.line.length + turnsOf s.input

theorem turnsOf_cons (a : HostAction) (more : List HostAction) : turnsOf (a :: more) = a.turns + turnsOf more :=
  List.sum_cons

theorem State.turnsLeft_of_idle {s : State} (hl : s.line = []) : s.turnsLeft = turnsOf s.input := by
  rw [State.turnsLeft, hl, List.length_nil, Nat.zero_add]

theorem State.turnsLeft_of_busy {s : State} {tk : Token} {rest : List Token} (hl : s.line = tk :: rest) :
    s.turnsLeft = rest.length + 1 + turnsOf s.input := by
  rw [State.turnsLeft, hl, List.length_cons]

theorem State.turnsLeft_of_offered {s : State} {a : HostAction} {more : List HostAction} (hin : s.input = a :: more) :
    s.turnsLeft = a.turns + (s.setInput more).turnsLeft := by
  rw [State.turnsLeft, hin, turnsOf_cons]
  exact Nat.add_left_comm _ _ _

theorem HostAction.turns_pos (a : HostAction) : 0 < a.turns := by
  cases a with
  | submitLine l => exact List.length_pos_iff.mpr (split_ne_nil l)
  | _ => exact Nat.one_pos

/-- No turns are left when the input is exhausted (R162 (c)). -/
theorem State.turnsLeft_eq_zero_iff {s : State} : s.turnsLeft = 0 ↔ s.line = [] ∧ s.input = [] := by
  refine ⟨fun h => ?_, fun ⟨hl, hi⟩ => by rw [State.turnsLeft_of_idle hl, hi]; rfl⟩
  cases hl : s.line with
  | cons tk rest =>
    rw [State.turnsLeft_of_busy hl] at h
    omega
  | nil =>
    cases hi : s.input with
    | nil => exact ⟨rfl, rfl⟩
    | cons a more =>
      have hpos := a.turns_pos
      rw [State.turnsLeft_of_offered hi] at h
      omega

/-- Executing a word adds no token and no action of the host. -/
theorem turnsLeft_runWord {s t : State} {cw : CmdWord} (h : runWord cw s = .next t) : t.turnsLeft ≤ s.turnsLeft := by
  obtain ⟨u, hx, rfl⟩ := settle_next h
  have frame := exec_onlyArch hx
  obtain ⟨l, hl, -, hd⟩ := u.dropLineIfStopped_eq_setLine
  have hline : l.length ≤ s.line.length := frame.line ▸ hl.length_le
  rw [hd, State.turnsLeft, State.turnsLeft, State.setLine_line, State.setLine_input, frame.input]
  exact Nat.add_le_add_right hline _

/-- After a token only the rest of its line is in progress. -/
theorem turnsLeft_runToken {s t : State} {tk : Token} {rest : List Token} (h : runToken tk rest s = .next t) :
    t.turnsLeft ≤ rest.length + turnsOf s.input :=
  turnsLeft_runWord h

theorem turnsLeft_runCommand {s t : State} {cw : CmdWord} (h : runCommand cw s = .next t) :
    t.turnsLeft ≤ s.turnsLeft :=
  turnsLeft_runWord (s := s.setCursor s.cursor.afterCommand) h

/-- Taking a line up uses one of its tokens. -/
theorem turnsLeft_startLine {s t : State} {l : Line} (h : startLine l s = .next t) :
    t.turnsLeft < (split l).length + turnsOf s.input := by
  obtain ⟨tk, rest, hsplit⟩ := List.exists_cons_of_ne_nil (split_ne_nil l)
  rw [startLine_of_split hsplit] at h
  have hrest := turnsLeft_runToken h
  rw [hsplit, List.length_cons]
  omega

/-- A busy core uses a token; the idle core does what it does. -/
theorem turnsLeft_workOr {s t : State} {inp : List HostAction} {idle : Result} (hinp : turnsOf inp ≤ turnsOf s.input)
    (h : (s.setInput inp).workOr idle = .next t) (hidle : s.line = [] → idle = .next t → t.turnsLeft < s.turnsLeft) :
    t.turnsLeft < s.turnsLeft := by
  cases hl : s.line with
  | nil => exact hidle hl (by rwa [State.workOr_idle (by simpa using hl)] at h)
  | cons tk rest =>
    rw [State.workOr_busy (by simpa using hl)] at h
    have hrest : t.turnsLeft ≤ rest.length + turnsOf inp := turnsLeft_runToken h
    rw [State.turnsLeft_of_busy hl]
    omega

/-- What is left after an action of the host is taken is less than before, since each action has a turn (R160). -/
theorem turnsLeft_of_taken {s t : State} {a : HostAction} {more : List HostAction} (hin : s.input = a :: more)
    (h : t.turnsLeft ≤ (s.setInput more).turnsLeft) : t.turnsLeft < s.turnsLeft := by
  have hpos := a.turns_pos
  rw [State.turnsLeft_of_offered hin]
  omega

/-- A submission to a stopped core is taken off all the same (log 5). -/
theorem turnsLeft_acceptIfRunning {s t : State} {a : HostAction} {more : List HostAction} {accepted : Result}
    (hin : s.input = a :: more) (h : (s.setInput more).acceptIfRunning accepted = .next t)
    (haccepted : accepted = .next t → t.turnsLeft < s.turnsLeft) : t.turnsLeft < s.turnsLeft := by
  by_cases hrun : s.status = .run
  · exact haccepted (by rwa [State.acceptIfRunning_run (by simpa using hrun)] at h)
  · rw [State.acceptIfRunning_stopped (by simpa using hrun)] at h
    cases h
    exact turnsLeft_of_taken hin (Nat.le_refl _)

/-- Every step uses a turn while any is left: a token or an action of the host (R160). -/
theorem turnsLeft_step {s t : State} (hleft : s.turnsLeft ≠ 0) (h : step s = .next t) : t.turnsLeft < s.turnsLeft := by
  rw [step, turn] at h
  cases hin : s.input with
  | nil =>
    rw [hin] at h
    exact turnsLeft_workOr (Nat.le_refl _) h fun hl _ => absurd (State.turnsLeft_eq_zero_iff.mpr ⟨hl, hin⟩) hleft
  | cons a more =>
    rw [hin] at h
    have later : turnsOf more ≤ turnsOf s.input := by
      rw [hin, turnsOf_cons]
      exact Nat.le_add_left _ _
    have taken {u : State} (hu : u.turnsLeft ≤ (s.setInput more).turnsLeft) : u.turnsLeft < s.turnsLeft :=
      turnsLeft_of_taken hin hu
    have all : turnsOf s.input ≤ turnsOf s.input := Nat.le_refl _
    cases a with
    | reset =>
      cases h
      exact taken (Nat.add_le_add_right (Nat.zero_le _) _)
    | readStatus => cases h; exact taken (Nat.le_refl _)
    | pause => exact turnsLeft_workOr later h fun _ hn => by cases hn; exact taken (Nat.le_refl _)
    | readStack => exact turnsLeft_workOr all h fun _ hn => by cases hn; exact taken (Nat.le_refl _)
    | readOut => exact turnsLeft_workOr all h fun _ hn => by cases hn; exact taken (Nat.le_refl _)
    | submitLine l =>
      refine turnsLeft_workOr all h fun hl ha => turnsLeft_acceptIfRunning hin ha fun hs => ?_
      rw [State.turnsLeft_of_idle hl, hin, turnsOf_cons]
      exact turnsLeft_startLine hs
    | submitCommand cw =>
      refine turnsLeft_workOr all h fun _ ha => turnsLeft_acceptIfRunning hin ha fun hc => ?_
      exact taken (turnsLeft_runCommand hc)

/-- While turns are left, a core that meets the invariant has a step. -/
theorem exists_step_of_turnsLeft {s : State} (hs : s.Inv) (hleft : s.turnsLeft ≠ 0) : ∃ t, step s = .next t := by
  obtain ⟨-, hidle, -⟩ := hs
  by_cases hrun : s.status = .run
  · exact exists_step (.inl hrun)
  · have hl := hidle hrun
    exact exists_step (.inr ⟨hl, fun hi => hleft (State.turnsLeft_eq_zero_iff.mpr ⟨hl, hi⟩)⟩)

/-- The run goes on until no turns are left, by induction on how many there are. -/
theorem run_until_no_turnsLeft (k : Nat) {s : State} (hs : s.Inv) (hk : s.turnsLeft = k) :
    ∃ n t, n ≤ k ∧ Host.Core.run core n s = .next t ∧ t.turnsLeft = 0 := by
  induction k using Nat.strong_induction_on generalizing s with
  | _ k ih =>
    by_cases hleft : s.turnsLeft = 0
    · exact ⟨0, s, Nat.zero_le k, rfl, hleft⟩
    · obtain ⟨t, hstep⟩ := exists_step_of_turnsLeft hs hleft
      have hless := hk ▸ turnsLeft_step hleft hstep
      obtain ⟨n, u, hn, hrun, hend⟩ := ih _ hless ((step_turn hstep).inv hs) rfl
      exact ⟨n + 1, u, by omega, (run_of_step ((core_step s).trans hstep) n).trans hrun, hend⟩

/-- With nothing in progress and nothing to come a run is over, whatever STATUS is (R162). -/
theorem endOfRun_of_exhausted {s : State} (hl : s.line = []) (hi : s.input = []) : s.endOfRun.isSome = true := by
  cases hst : s.status <;> simp [State.endOfRun, Status.isFault, hst, hl, hi]

/-- Settles O56: the bound of the statement is `State.turnsLeft`. -/
theorem finiteInputIsConsumed : Obligations.FiniteInputIsConsumed := by
  intro s hs
  obtain ⟨n, t, hn, hrun, hend⟩ := run_until_no_turnsLeft s.turnsLeft hs rfl
  obtain ⟨hl, hi⟩ := State.turnsLeft_eq_zero_iff.mp hend
  exact ⟨n, t, hn, hrun, hl, hi, endOfRun_of_exhausted hl hi⟩

end Sys2Proof.Machine

namespace Sys2Proof.Machine

/-! ## Events -/

/-- Settles O23. -/
theorem raiseWritesStatusOnly : Obligations.RaiseWritesStatusOnly :=
  ⟨fun _ _ => rfl, rfl, rfl, rfl, rfl, rfl⟩

/-- A beginning of a stack that fits is full only where it is the whole stack. -/
theorem State.eq_of_full_prefix {s : State} (hs : s.StackFits) {low : List Byte} (hlow : low <+: s.stack)
    (hfull : (s.setStack low).isFull = true) : low = s.stack := by
  have hdepth : s.depth = .finite low.length := State.isFull_iff.mp hfull
  obtain ⟨-, hfits⟩ := hs
  exact hlow.eq_of_length_le (by simpa [hdepth, fitsIn] using hfits)

/-- Settles O35: besides the instructions that do nothing but raise, only an overflowing `Push` leaves RUN, and on a
stack that fits that is a `Push` for which nothing was popped (R44). -/
theorem eventsArePrecise : Obligations.EventsArePrecise := by
  intro i s t hs h hevent
  obtain ⟨hrun, ⟨low, v, hlow, rfl⟩ | ⟨-, rfl⟩ | ⟨-, rfl⟩ | ⟨-, rfl⟩ | ⟨-, rfl⟩⟩ := exec_cases h
  · rcases (s.setStack low).push_cases v with ⟨hfull, hp⟩ | ⟨-, hp⟩
    · rw [hp, State.eq_of_full_prefix hs hlow hfull]
      rfl
    · exact absurd (by simpa [hp] using hrun) hevent
  · rfl
  · exact absurd hrun hevent
  · exact absurd hrun hevent
  · rfl

/-- A stack of fewer than two elements whose top is 0, or which has none. -/
theorem eq_nil_or_zero_of_top_zero {l : List Byte} (hshort : l.length < 2) (htop : l.getLast?.getD 0x00#8 = 0x00#8) :
    l = [] ∨ l = [0x00#8] := by
  match l with
  | [] => exact .inl rfl
  | [x] => exact .inr (by simpa using htop)
  | _ :: _ :: _ => simp at hshort

/-- Settles O34: the pops take all there is, so the result is the one element left; DIV's event needs a divisor 0, the
top or the default. -/
theorem underflowIsNoEvent : Obligations.UnderflowIsNoEvent := by
  intro s i hrun hs hshort hi
  obtain ⟨t, ht⟩ := exec_of_run hrun i
  refine ⟨t, ht, ?_⟩
  rcases exec_binary_cases_of_fits hi hs ht with ⟨rfl, rfl⟩ | ⟨low, removed, v, hsplit, hcount, rfl⟩
  · have htop : s.stack.getLast?.getD 0x00#8 = 0x00#8 := by
      by_contra hne
      simpa [hne, Cause.status] using exec_div_status hrun hs ht
    exact ⟨rfl, .inr ⟨rfl, rfl, rfl, eq_nil_or_zero_of_top_zero hshort htop⟩⟩
  · have hlow : low = [] := by
      have hlen : s.stack.length = low.length + removed.length := by simp [hsplit]
      rw [← List.length_eq_zero_iff]
      omega
    exact ⟨rfl, .inl ⟨hrun, by simp [hlow]⟩⟩

end Sys2Proof.Machine

namespace Sys2Proof.Machine

/-! ## What the host reads and shows -/

/-- Settles O47: ReadStatus is answered at once, the other two reads by an idle core. -/
theorem hostReadsChangeNothing : Obligations.HostReadsChangeNothing := by
  refine fun s more => ⟨fun hi => ?_, fun hi hl => ?_, fun hi hl => ?_⟩ <;> rw [step, turn, hi]
  · rfl
  · exact State.workOr_idle hl _
  · exact State.workOr_idle hl _

/-- The code of a lowercase hexadecimal digit (R60). -/
theorem toNat_hexChar {d : Nat} (hd : d < 16) :
    (d < 10 ∧ (hexChar d).toNat = 0x30 + d) ∨ (10 ≤ d ∧ (hexChar d).toNat = 0x61 + (d - 10)) := by
  unfold hexChar
  split <;> simp only [BitVec.toNat_ofNat] <;> omega

theorem hexDigit_hexChar {d : Nat} (hd : d < 16) : hexDigit (hexChar d) = some d := by
  rw [hexDigit_eq_some_iff]
  have hcode := toNat_hexChar hd
  omega

/-- Two hexadecimal digits are no `0x`. -/
theorem stripHexMark_hexPair (v : Byte) : stripHexMark (hexPair v) = hexPair v := by
  refine stripHexMark_of_not_prefix fun hmark => ?_
  simp only [hexPair, List.cons_prefix_cons] at hmark
  obtain ⟨-, hx, -⟩ := hmark
  have hdigit := hexDigit_hexChar (Nat.mod_lt v.toNat (by decide : 0 < 16))
  rw [← hx] at hdigit
  simp [hexDigit] at hdigit

theorem numeralFrom_hexPair (v : Byte) : numeralFrom 16 hexDigit 0 (hexPair v) = some v.toNat := by
  have hv := v.isLt
  simp only [hexPair, numeralFrom, hexDigit_hexChar (show v.toNat / 16 < 16 by omega),
    hexDigit_hexChar (show v.toNat % 16 < 16 by omega), Option.some.injEq]
  omega

theorem hexLiteral_hexPair (v : Byte) : hexLiteral (hexPair v) = some v := by
  rw [hexLiteral, stripHexMark_hexPair, byteNumeral_of_ne_nil 16 hexDigit (show hexPair v ≠ [] from List.cons_ne_nil _ _),
    numeralFrom_hexPair]
  exact (byteOfNumber_eq_some_iff v.toNat v).mpr rfl

theorem hexPair_chars {v ch : Byte} (hch : ch ∈ hexPair v) :
    (0x30 ≤ ch.toNat ∧ ch.toNat ≤ 0x39) ∨ (0x61 ≤ ch.toNat ∧ ch.toNat ≤ 0x66) := by
  have hv := v.isLt
  obtain ⟨d, hd, rfl⟩ : ∃ d < 16, ch = hexChar d := by
    rcases List.mem_pair.mp hch with rfl | rfl
    · exact ⟨_, by omega, rfl⟩
    · exact ⟨_, by omega, rfl⟩
  have hcode := toNat_hexChar hd
  omega

theorem tokenWf_hexPair (v : Byte) : tokenWf (hexPair v) = true := by
  rw [tokenWf_iff]
  intro hspace
  have hrange := hexPair_chars hspace
  simp at hrange

/-- The prompt's text in tokens (R177). -/
theorem split_renderPrompt {s : List Byte} {text : Line} (h : renderPrompt s = some text) :
    split text = s.map hexPair := by
  cases s with
  | nil => cases h
  | cons e rest =>
    obtain rfl := Option.some.inj h
    rw [split, splitFrom_append (tokenWf_hexPair e), List.nil_append, splitFrom_flatMap_space tokenWf_hexPair,
      List.map_cons]

theorem exists_renderPrompt {s : List Byte} (hs : s ≠ []) : ∃ text, renderPrompt s = some text := by
  obtain ⟨e, rest, rfl⟩ := List.exists_cons_of_ne_nil hs
  exact ⟨_, rfl⟩

/-- Settles O58: no digit is a space, so the spaces written between the elements are those the text is split at. -/
theorem promptTextIsHexPairs : Obligations.PromptTextIsHexPairs := by
  refine ⟨rfl, fun s hs => ?_⟩
  obtain ⟨text, htext⟩ := exists_renderPrompt hs
  exact ⟨text, htext, split_renderPrompt htext, fun v _ => ⟨rfl, hexLiteral_hexPair v, fun _ => hexPair_chars⟩⟩

end Sys2Proof.Machine

namespace Sys2Proof.Machine

/-! ## The output pins -/

/-- What the output pins show wherever the pin form exists (R178). -/
def State.pinsOut (s : State) : PinsOut where
  status := s.status.code
  busy := s.busy
  sp := s.stack.length
  chReady := decide (s.status = .run) && !s.busy
  cmdReady := decide (s.status = .run) && !s.busy

theorem State.pins_of_unbounded {s : State} (hd : s.depth = .unbounded) : s.pins = none := by
  simp [State.pins, hd]

theorem State.pins_of_finite {s : State} {cells : Nat} (hd : s.depth = .finite cells) : s.pins = some s.pinsOut := by
  simp [State.pins, State.pinsOut, hd]

theorem State.eq_pinsOut_of_pins {s : State} {p : PinsOut} (h : s.pins = some p) : p = s.pinsOut := by
  cases hd : s.depth with
  | unbounded => simp [State.pins_of_unbounded hd] at h
  | finite cells => exact Option.some.inj (h.symm.trans (State.pins_of_finite hd))

theorem State.busy_iff {s : State} : s.busy = true ↔ s.line ≠ [] := by
  simp [State.busy]

theorem State.busy_eq_false_iff {s : State} : s.busy = false ↔ s.line = [] := by
  simp [State.busy]

/-- A ready pin is high exactly when the core is idle and running. -/
theorem State.pinsOut_chReady_iff {s : State} : s.pinsOut.chReady = true ↔ s.status = .run ∧ s.line = [] := by
  simp [State.pinsOut, State.busy]

theorem State.pinsOut_cmdReady {s : State} : s.pinsOut.cmdReady = s.pinsOut.chReady := rfl

/-! ## The input pins -/

theorem PinsIn.transfers_of_rst {i : PinsIn} (hrst : i.rst = true) (p : PinsOut) : i.transfers p = some [.rst] := by
  simp [PinsIn.transfers, hrst]

/-- A port that is not ready transfers nothing. -/
theorem PinsIn.transfers_of_not_ready {i : PinsIn} {p : PinsOut} (hrst : i.rst = false) (hch : p.chReady = false)
    (hcmd : p.cmdReady = false) : i.transfers p = some [] := by
  simp [PinsIn.transfers, PinsIn.chTransfer, PinsIn.cmdTransfer, hrst, hch, hcmd]

/-- Ports that are ready transfer what is offered on them; both at one edge have no value (log 20). -/
theorem PinsIn.transfers_of_ready {i : PinsIn} {p : PinsOut} (hrst : i.rst = false) (hch : p.chReady = true)
    (hcmd : p.cmdReady = true) :
    (i.chValid = false → i.cmdValid = false → i.transfers p = some []) ∧
    (i.chValid = true → i.cmdValid = false →
      i.transfers p = some [.ch (if i.chEol = true then .eol else .char i.chData)]) ∧
    (i.chValid = false → i.cmdValid = true → i.transfers p = some [.cmd i.cmdData]) ∧
    (i.chValid = true → i.cmdValid = true → i.transfers p = none) := by
  refine ⟨fun hv hw => ?_, fun hv hw => ?_, fun hv hw => ?_, fun hv hw => ?_⟩ <;>
    simp [PinsIn.transfers, PinsIn.chTransfer, PinsIn.cmdTransfer, hrst, hch, hcmd, hv, hw]

/-- The transfers of actions that have any make exactly those actions (R178). -/
theorem submissionsFrom_flatMap_portTransfers {acts : List HostAction} (h : ∀ a ∈ acts, a.portTransfers ≠ []) :
    submissionsFrom [] (acts.flatMap HostAction.portTransfers) = some acts := by
  induction acts with
  | nil => rfl
  | cons a acts ih =>
    obtain ⟨ha, hacts⟩ := List.forall_mem_cons.mp h
    rw [List.flatMap_cons, submissionsFrom_portTransfers a _ ha, ih hacts, Option.map_some]

/-- The actions that the host takes on its input-side pins. -/
theorem HostAction.portTransfers_ne_nil_iff (a : HostAction) : a.portTransfers ≠ [] ↔
    a = .reset ∨ (∃ l, a = .submitLine l) ∨ (∃ cw, a = .submitCommand cw) := by
  cases a <;> simp [HostAction.portTransfers, lineTransfers]

/-- Without Resets and command words the submissions are the completed lines. -/
theorem submissionsFrom_map_ch (cur : Line) (ts : List ChTransfer) :
    submissionsFrom cur (ts.map .ch) = some ((linesFrom cur ts).map .submitLine) := by
  induction ts generalizing cur with
  | nil => rfl
  | cons t ts ih => cases t <;> simp [submissionsFrom, linesFrom, ih]

theorem State.offerTransfers_unbounded {s : State} (hd : s.depth = .unbounded) (ts : List PortTransfer) :
    s.offerTransfers ts = none := by
  simp [State.offerTransfers, hd]

theorem State.offerTransfers_finite {s : State} {cells : Nat} (hd : s.depth = .finite cells) {ts : List PortTransfer}
    {acts : List HostAction} (hts : submissionsFrom [] ts = some acts) :
    s.offerTransfers ts = some (s.setInput (s.input ++ acts)) := by
  simp [State.offerTransfers, hd, hts]

/-- One action offered on the pins to a core whose host has nothing else to come. -/
theorem State.offerTransfers_portTransfers {s : State} {cells : Nat} (hd : s.depth = .finite cells) {a : HostAction}
    (ha : a.portTransfers ≠ []) (hi : s.input = []) : s.offerTransfers a.portTransfers = some (s.setInput [a]) := by
  have hsub : submissionsFrom [] a.portTransfers = some [a] := by
    simpa using submissionsFrom_flatMap_portTransfers (acts := [a]) (by simpa using ha)
  rw [State.offerTransfers_finite hd hsub, hi, List.nil_append]

/-- Settles O60: the ready pins decide what transfers, each action's transfers make that action again, and what is
submitted stands in front of an idle core as its next action. -/
theorem inputPinsMergeIntoSubmissions : Obligations.InputPinsMergeIntoSubmissions := by
  refine ⟨fun s p i hp => ?_, fun _ => submissionsFrom_flatMap_portTransfers, HostAction.portTransfers_ne_nil_iff,
    submissionsFrom_map_ch [], fun l cw ts => ⟨?_, fun hl => ?_⟩, fun _ ts hd => State.offerTransfers_unbounded hd ts,
    fun s cells hd => ⟨fun _ _ => State.offerTransfers_finite hd, fun hi => ?_, fun cw hrun hl hi => ?_⟩⟩
  · obtain rfl := State.eq_pinsOut_of_pins hp
    refine ⟨fun hrst => PinsIn.transfers_of_rst hrst _, fun hrst hstop => ?_, fun hrst hrun hl => ?_⟩
    · have hready : s.pinsOut.chReady = false := by
        rw [← Bool.not_eq_true, State.pinsOut_chReady_iff]
        tauto
      exact PinsIn.transfers_of_not_ready hrst hready (State.pinsOut_cmdReady.trans hready)
    · have hready := State.pinsOut_chReady_iff.mpr ⟨hrun, hl⟩
      exact PinsIn.transfers_of_ready hrst hready (State.pinsOut_cmdReady.trans hready)
  · exact submissionsFrom_chars [] l _
  · rw [submissionsFrom_chars, List.nil_append, submissionsFrom, if_neg hl]
  · exact ⟨_, State.offerTransfers_portTransfers (a := .reset) hd (by simp [HostAction.portTransfers]) hi,
      step_reset (s := s.setInput [.reset]) (more := []) rfl⟩
  · exact ⟨_, State.offerTransfers_portTransfers (a := .submitCommand cw) hd (by simp [HostAction.portTransfers]) hi,
      (stepRunsTheSubmittedWord (s.setInput [.submitCommand cw]) cw [] hrun hl rfl).trans (by rw [← hi]; rfl)⟩

end Sys2Proof.Machine

namespace Sys2Proof.Machine

/-! ## Lines and records as transfers -/

/-- The transfers of lines complete those lines (R178). -/
theorem linesFrom_flatMap_lineTransfers (ls : List Line) : linesFrom [] (ls.flatMap lineTransfers) = ls := by
  induction ls with
  | nil => rfl
  | cons l ls ih => rw [List.flatMap_cons, linesFrom_lineTransfers, ih, List.nil_append]

/-- The transfers of records complete those records (R178). -/
theorem recordsFrom_flatMap_recordTransfers (rs : List Record) :
    recordsFrom [] (rs.flatMap recordTransfers) = rs := by
  induction rs with
  | nil => rfl
  | cons r rs ih =>
    obtain ⟨es⟩ := r
    rw [List.flatMap_cons, recordsFrom_recordTransfers, ih, List.nil_append]

/-! ## The dump stream -/

theorem State.Inv.taken_le {s : State} (hs : s.Inv) : s.taken ≤ s.out.length := by
  obtain ⟨-, -, -, htaken, -, -⟩ := hs
  exact htaken

theorem State.Inv.outPos_le {s : State} (hs : s.Inv) : s.outPos ≤ s.nextElements.length := by
  obtain ⟨-, -, -, -, hpos, -⟩ := hs
  exact hpos

/-- The elements already transferred and what is left of the stream make the untaken records. -/
theorem State.recordsFrom_outStream {s : State} (hpos : s.outPos ≤ s.nextElements.length) :
    recordsFrom (s.nextElements.take s.outPos) s.outStream = s.untaken := by
  rcases s.outStream_cases hpos with ⟨hu, -, hs⟩ | ⟨es, rest, hu, -, hs⟩
  · rw [hs, hu, recordsFrom]
  · have hnext : s.nextElements = es := by simp [State.nextElements, hu, Record.elements]
    have hstream : s.outStream = recordTransfers (.dump (es.drop s.outPos)) ++ rest.flatMap recordTransfers := by
      simp [hs, recordTransfers]
    rw [hstream, recordsFrom_recordTransfers, recordsFrom_flatMap_recordTransfers, hnext, List.take_append_drop, hu]

theorem lt_length_of_drop_eq_cons {α : Type} {l rest : List α} {n : Nat} {a : α} (h : l.drop n = a :: rest) :
    n < l.length := by
  by_contra hge
  simp [List.drop_eq_nil_of_le (Nat.le_of_not_lt hge)] at h

/-- What the first transfer of the stream can be: an element that the next record still holds, or the `out_last` that
closes that record, with the records after it to follow. -/
theorem State.outStream_cons_cases {s : State} (hpos : s.outPos ≤ s.nextElements.length) {t : OutTransfer}
    {rest : List OutTransfer} (h : s.outStream = t :: rest) :
    (∃ e, t = .element e ∧ s.outPos < s.nextElements.length) ∨
    (t = .last ∧ ∃ r rs, s.untaken = r :: rs ∧ rest = rs.flatMap recordTransfers) := by
  rcases s.outStream_cases hpos with ⟨-, -, hs⟩ | ⟨es, rs, hu, -, hs⟩
  · simp [hs] at h
  · have hnext : s.nextElements = es := by simp [State.nextElements, hu, Record.elements]
    rw [hs] at h
    cases hleft : es.drop s.outPos with
    | nil =>
      rw [hleft, List.map_nil, List.nil_append] at h
      obtain ⟨rfl, rfl⟩ := List.cons.inj h
      exact .inr ⟨rfl, _, rs, hu, rfl⟩
    | cons e es' =>
      rw [hleft, List.map_cons, List.cons_append] at h
      obtain ⟨rfl, -⟩ := List.cons.inj h
      exact .inl ⟨e, rfl, hnext ▸ lt_length_of_drop_eq_cons hleft⟩

/-- Taking the first untaken record leaves the others. -/
theorem State.drop_taken_succ {s : State} {r : Record} {rs : List Record} (hu : s.untaken = r :: rs) :
    s.out.drop (s.taken + 1) = rs := by
  rw [← List.drop_drop, ← State.untaken, hu, List.drop_one, List.tail_cons]

/-- A transfer is off the stream after its edge. -/
theorem State.afterOut_outStream {s : State} (hpos : s.outPos ≤ s.nextElements.length) {t : OutTransfer}
    {rest : List OutTransfer} (h : s.outStream = t :: rest) : (s.afterOut t).outStream = rest := by
  rcases s.outStream_cons_cases hpos h with ⟨e, rfl, -⟩ | ⟨rfl, r, rs, hu, rfl⟩
  · calc (s.setOutPos (s.outPos + 1)).outStream = s.outStream.drop 1 := List.drop_drop.symm
      _ = rest := by rw [h, List.drop_one, List.tail_cons]
  · exact congrArg (List.flatMap recordTransfers) (State.drop_taken_succ hu)

theorem State.afterOut_inv {s : State} (hs : s.Inv) {t : OutTransfer} {rest : List OutTransfer}
    (h : s.outStream = t :: rest) : (s.afterOut t).Inv := by
  obtain ⟨hfit, hstop, htok, htaken, hpos, hst⟩ := hs
  rcases s.outStream_cons_cases hpos h with ⟨e, rfl, hlt⟩ | ⟨rfl, r, rs, hu, -⟩
  · exact ⟨hfit, hstop, htok, htaken, hlt, hst⟩
  · have hmore : s.taken < s.out.length := lt_length_of_drop_eq_cons hu
    exact ⟨hfit, hstop, htok, hmore, Nat.zero_le _, hst⟩

/-- The state in which the host has been handed every record, one by one (R176, R178). -/
def State.drained (s : State) : State :=
  { s with taken := s.out.length, outPos := 0, replies := s.replies ++ s.untaken.map (fun r => .out [r]) }

/-- What is left to drain after a transfer leads to the same end. -/
theorem State.drained_afterOut {s : State} (hpos : s.outPos ≤ s.nextElements.length) {t : OutTransfer}
    {rest : List OutTransfer} (h : s.outStream = t :: rest) : (s.afterOut t).drained = s.drained := by
  rcases s.outStream_cons_cases hpos h with ⟨e, rfl, -⟩ | ⟨rfl, r, rs, hu, -⟩
  · rfl
  · have hu' : (s.afterOut .last).untaken = rs := State.drop_taken_succ hu
    rw [State.drained, State.drained, hu', hu]
    simp [hu, State.afterOut, State.handOver, State.addReply, State.setTaken, State.setOutPos]

theorem State.drained_of_outStream_nil {s : State} (htaken : s.taken ≤ s.out.length)
    (hpos : s.outPos ≤ s.nextElements.length) (h : s.outStream = []) : s.drained = s := by
  rcases s.outStream_cases hpos with ⟨hu, hzero, -⟩ | ⟨es, rest, -, -, hs⟩
  · have hall : s.out.length = s.taken := (List.drop_eq_nil_iff.mp hu).antisymm htaken
    simp [State.drained, hu, hall, ← hzero]
  · simp [hs] at h

theorem State.outEdge_of_cons {s : State} (hd : s.depth ≠ .unbounded) (hl : s.line = []) {t : OutTransfer}
    {rest : List OutTransfer} (h : s.outStream = t :: rest) : s.outEdge true = some (some t, s.afterOut t) := by
  rcases s.outEdge_cases true with ⟨hunb, -⟩ | ⟨-, hnone, -⟩ | ⟨t', rest', -, -, -, h', hedge⟩
  · exact absurd hunb hd
  · simp [State.busy, hl, h] at hnone
  · obtain ⟨rfl, -⟩ := List.cons.inj (h.symm.trans h')
    exact hedge

/-- With `out_ready` high at as many edges as there are transfers, all transfer, in order. -/
theorem State.outEdges_drain (stream : List OutTransfer) {s : State} (hs : s.Inv) (hd : s.depth ≠ .unbounded)
    (hl : s.line = []) (h : s.outStream = stream) :
    s.outEdges (List.replicate stream.length true) = some (stream, s.drained) := by
  induction stream generalizing s with
  | nil => simp [State.outEdges, State.drained_of_outStream_nil hs.taken_le hs.outPos_le h]
  | cons t rest ih =>
    have hframe : (s.afterOut t).depth = s.depth ∧ (s.afterOut t).line = s.line := by cases t <;> exact ⟨rfl, rfl⟩
    obtain ⟨hdepth, hline⟩ := hframe
    have hrest := ih (State.afterOut_inv hs h) (hdepth ▸ hd) (hline.trans hl) (State.afterOut_outStream hs.outPos_le h)
    simp [List.replicate_succ, State.outEdges, State.outEdge_of_cons hd hl h, hrest,
      State.drained_afterOut hs.outPos_le h]

/-! ## The pins of a state -/

/-- What the `out_` port shows (R178). -/
theorem outPins_of_pending (pending : List OutTransfer) :
    ((outPins pending).valid = true ↔ pending ≠ []) ∧ ((outPins pending).last = true ↔ pending.head? = some .last) ∧
    ∀ e, (outPins pending).data = some e ↔ pending.head? = some (.element e) := by
  match pending with
  | [] => simp [outPins]
  | .element _ :: _ => simp [outPins]
  | .last :: _ => simp [outPins]

theorem State.outPending_of_finite {s : State} (hd : s.depth ≠ .unbounded) :
    s.outPending = some (if s.busy then [] else s.outStream) := by
  cases h : s.depth with
  | unbounded => exact absurd h hd
  | finite cells => simp [State.outPending, h]

/-- The width of `sp` is the least that holds every depth from 0 to `STACK_DEPTH` (R178). -/
theorem clog_bounds {cells : Nat} (hcells : 1 ≤ cells) :
    cells + 1 ≤ 2 ^ Nat.clog 2 (cells + 1) ∧ 2 ^ Nat.clog 2 (cells + 1) < 2 * (cells + 1) := by
  have hpos : 0 < Nat.clog 2 (cells + 1) := Nat.clog_pos Nat.one_lt_two (by omega)
  have hlow : 2 ^ (Nat.clog 2 (cells + 1)).pred < cells + 1 := Nat.pow_pred_clog_lt_self Nat.one_lt_two (by omega)
  refine ⟨Nat.le_pow_clog Nat.one_lt_two _, ?_⟩
  rw [← Nat.succ_pred_eq_of_pos hpos, Nat.pow_succ]
  omega

theorem State.StackFits.bounds {s : State} (hs : s.StackFits) {cells : Nat} (hd : s.depth = .finite cells) :
    1 ≤ cells ∧ s.stack.length ≤ cells := by
  simpa [State.StackFits, StackDepth.wf, fitsIn, hd] using hs

theorem State.rdData_of_finite {s : State} {cells : Nat} (hd : s.depth = .finite cells) (k : Nat) :
    s.rdData k = if s.busy then none else s.stack[k]? := by
  simp [State.rdData, hd]

/-- `rd_data` has a value exactly at an index below `sp` while `busy` is low (R174). -/
theorem State.isSome_rdData_iff {s : State} {cells : Nat} (hd : s.depth = .finite cells) (k : Nat) :
    (s.rdData k).isSome = true ↔ k < s.stack.length ∧ s.busy = false := by
  rw [State.rdData_of_finite hd]
  cases s.busy <;> simp

/-- With an unbounded `STACK_DEPTH` the pin form does not exist (R178). -/
theorem no_output_pins_of_unbounded {s : State} (hd : s.depth = .unbounded) :
    s.pins = none ∧ spWidth s.depth = none ∧ s.outPending = none ∧ (∀ k : Nat, s.rdData k = none) ∧
    ∀ ready : Bool, s.outEdge ready = none := by
  have hpending : s.outPending = none := by simp [State.outPending, hd]
  exact ⟨State.pins_of_unbounded hd, by rw [hd, spWidth], hpending, fun k => by simp [State.rdData, hd],
    fun ready => by simp [State.outEdge, hpending]⟩

/-- What one edge of the `out_` port does to the stream and to the state (R178). -/
theorem State.outEdge_effect {s : State} (hs : s.Inv) (hd : s.depth ≠ .unbounded) (ready : Bool) :
    ∃ (o : Option OutTransfer) (t : State), s.outEdge ready = some (o, t) ∧ t.Inv ∧
      o.toList ++ t.outStream = s.outStream ∧ (o.isSome = true ↔ ready = true ∧ s.line = [] ∧ s.outStream ≠ []) ∧
      (o = none → t = s) ∧ ∀ tr, o = some tr → t = s.afterOut tr := by
  rcases s.outEdge_cases ready with ⟨hunb, -⟩ | ⟨-, hnone, hedge⟩ | ⟨tr, rest, -, rfl, hidle, hstream, hedge⟩
  · exact absurd hunb hd
  · refine ⟨none, s, hedge, hs, rfl, ?_, fun _ => rfl, nofun⟩
    refine iff_of_false (by simp) fun ⟨hready, hl, hstream⟩ => ?_
    rcases hnone with hlow | hbusy | hnil
    · simp [hlow] at hready
    · exact State.busy_iff.mp hbusy hl
    · exact hstream hnil
  · refine ⟨some tr, s.afterOut tr, hedge, State.afterOut_inv hs hstream, ?_, ?_, nofun, ?_⟩
    · rw [State.afterOut_outStream hs.outPos_le hstream, hstream, Option.toList_some, List.singleton_append]
    · simp [State.busy_eq_false_iff.mp hidle, hstream]
    · rintro _ ⟨⟩
      rfl

/-- Settles O59: the framings are read back as they were written, the pins are read off the state, and of the `out_`
port one edge says what any number of them do. -/
theorem pinsCarryTheTransactions : Obligations.PinsCarryTheTransactions := by
  refine ⟨linesFrom_flatMap_lineTransfers, rfl, recordsFrom_flatMap_recordTransfers, rfl,
    fun _ => no_output_pins_of_unbounded, fun s cells hfit hd => ?_, outPins_of_pending, fun s hs hd => ?_⟩
  · obtain ⟨hcells, hlen⟩ := hfit.bounds hd
    obtain ⟨hwide, hnarrow⟩ := clog_bounds hcells
    refine ⟨s.pinsOut, Nat.clog 2 (cells + 1), State.pins_of_finite hd, by rw [hd, spWidth], hwide, hnarrow, rfl,
      (Nat.lt_succ_of_le hlen).trans_le hwide, rfl, State.pinsOut_chReady_iff, State.pinsOut_chReady_iff, State.busy_iff,
      State.outPending_of_finite (by simp [hd]), fun k => ⟨fun hbusy => ?_, State.isSome_rdData_iff hd k⟩⟩
    have hidle : s.busy = false := hbusy
    simp [State.rdData_of_finite hd, hidle]
  · refine ⟨rfl, fun hzero => by rw [State.outStream, hzero, List.drop_zero], State.recordsFrom_outStream hs.outPos_le,
      fun ready => ?_, fun hl => State.outEdges_drain _ hs hd hl rfl⟩
    obtain ⟨o, t, hedge, ht, hstream, hsome, hnone, hafter⟩ := State.outEdge_effect hs hd ready
    exact ⟨o, t, hedge, ht, hstream, hsome, hnone, fun e => hafter (.element e), hafter .last⟩

end Sys2Proof.Machine
